-- ==== Sys2Proof/Word.lean ====
section
/-! DEFINITION. The vector types of the engine's ports and its four transaction words (spec 00 R7, R11; 30 R80, R81). -/

namespace Sys2Proof

/-- A 16-bit port value: ENG operands, `result`, `supplemental_result`, P2MUL operands (R7). -/
abbrev Half := BitVec 16

/-- A 32-bit port value: RCA32 operands and sum, the P2MUL product (R7). -/
abbrev Wide := BitVec 32

/-- A transaction word: each block has one, of fixed length, and it packs all the block's input ports (R80). -/
inductive TxnWord where
  | fa (w : BitVec 3)
  | rca (w : BitVec 65)
  | eng (w : BitVec 36)
  | p2 (w : BitVec 32)
  deriving DecidableEq, Repr

/-- The four formats of R81, one per block. -/
inductive Format where
  | fa | rca | eng | p2
  deriving DecidableEq, Repr

/-- The length of a format's word in bits (R81). -/
def Format.bits : Format → Nat
  | .fa => 3
  | .rca => 65
  | .eng => 36
  | .p2 => 32

/-- The format a transaction word is in. -/
def TxnWord.format : TxnWord → Format
  | .fa _ => .fa
  | .rca _ => .rca
  | .eng _ => .eng
  | .p2 _ => .p2

/-- A transaction word read as one number, bit 0 least significant (R11). -/
def TxnWord.toNat : TxnWord → Nat
  | .fa w => w.toNat
  | .rca w => w.toNat
  | .eng w => w.toNat
  | .p2 w => w.toNat

end Sys2Proof
end

