-- ==== Sys2Proof/Syntax.lean ====
section
/-! DEFINITION. The transactions of the engine: one constructor per row of spec/opcode_table.json, in the table's order (spec 30 R84, R89, R91). -/

namespace Sys2Proof

/-- One transaction on one block: the operation with the values that drive the block's input ports, each port whole (R83).
Operands stand in the order of R91 (log entry 12). -/
inductive Instr where
  /-- `FA a, b, c` (R120). -/
  | fa (a b cIn : Bool)
  /-- `RCA32 a, b, c` (R125). -/
  | rca32 (a b : Wide) (cIn : Bool)
  /-- `ADD a, b` (R150). -/
  | add (a b : Half)
  /-- `SUB a, b` (R158). -/
  | sub (a b : Half)
  /-- `UMUL a, b` (R185). -/
  | umul (a b : Half)
  /-- `P2MUL x, p` (R190). -/
  | p2mul (x p : Half)
  /-- `UDIV a, b` (R196). -/
  | udiv (a b : Half)
  /-- `SMUL a, b` (R203). -/
  | smul (a b : Half)
  /-- `SDIV a, b` (R208). -/
  | sdiv (a b : Half)
  deriving DecidableEq, Repr

end Sys2Proof
end

