-- ==== Sys2Proof/Decode.lean ====
section
/-! DEFINITION. Transaction words: the decoder, then the encoder, both from the tables of spec 30 R81 and R84. -/

namespace Sys2Proof

/-- Why a transaction word selects no operation. -/
inductive DecodeError where
  /-- ENG op codes 0x6 to 0xF (R86). -/
  | reservedOp (op : BitVec 4)
  deriving DecidableEq, Repr

/-- Decoding an ENG word: the op select is bits 35 to 32, `a` bits 31 to 16, `b` bits 15 to 0; only `op` chooses (R85). Op codes 0x4
and 0x5 are decoded whatever the build: their meanings check the option (R203, R208). -/
def decodeEng (w : BitVec 36) : Except DecodeError Instr :=
  let op := w.extractLsb' 32 4
  let a := w.extractLsb' 16 16
  let b := w.extractLsb' 0 16
  match op.toNat with
  | 0 => .ok (.add a b)
  | 1 => .ok (.sub a b)
  | 2 => .ok (.umul a b)
  | 3 => .ok (.udiv a b)
  | 4 => .ok (.smul a b)
  | 5 => .ok (.sdiv a b)
  | _ => .error (.reservedOp op)

/-- Decoding a transaction word. The FA, RCA and P2 formats have no selector: every word of theirs is a transaction (R89). -/
def decode : TxnWord → Except DecodeError Instr
  | .fa w => .ok (.fa (w.getLsbD 2) (w.getLsbD 1) (w.getLsbD 0))
  | .rca w => .ok (.rca32 (w.extractLsb' 32 32) (w.extractLsb' 0 32) (w.getLsbD 64))
  | .eng w => decodeEng w
  | .p2 w => .ok (.p2mul (w.extractLsb' 16 16) (w.extractLsb' 0 16))

/-- The FA word of its three ports, `a` high (R81). -/
def packFa (a b cIn : Bool) : BitVec 3 :=
  BitVec.ofBool a ++ BitVec.ofBool b ++ BitVec.ofBool cIn

/-- The RCA word of its three ports, `c` on top (R81). -/
def packRca (a b : Wide) (cIn : Bool) : BitVec 65 :=
  BitVec.ofBool cIn ++ a ++ b

/-- The ENG word of its three ports, `op` on top (R81). -/
def packEng (op : BitVec 4) (a b : Half) : BitVec 36 :=
  op ++ a ++ b

/-- The P2 word of its two ports, `x` high (R81). -/
def packP2 (x p : Half) : BitVec 32 :=
  x ++ p

/-- The transaction word of a transaction (R81, R84). -/
def encode : Instr → TxnWord
  | .fa a b cIn => .fa (packFa a b cIn)
  | .rca32 a b cIn => .rca (packRca a b cIn)
  | .add a b => .eng (packEng 0x0#4 a b)
  | .sub a b => .eng (packEng 0x1#4 a b)
  | .umul a b => .eng (packEng 0x2#4 a b)
  | .p2mul x p => .p2 (packP2 x p)
  | .udiv a b => .eng (packEng 0x3#4 a b)
  | .smul a b => .eng (packEng 0x4#4 a b)
  | .sdiv a b => .eng (packEng 0x5#4 a b)

/-- The format whose word is `nbits` long, either exactly (R81) or counted in whole bytes (log entry 13). No two formats
share a length, so the length names the block. -/
def formatOfLength (nbits : Nat) : Option Format :=
  if nbits = 3 ∨ nbits = 8 then some .fa
  else if nbits = 32 then some .p2
  else if nbits = 36 ∨ nbits = 40 then some .eng
  else if nbits = 65 ∨ nbits = 72 then some .rca
  else none

/-- The transaction word a number stands for in a format: none where the number has a bit set above the word. -/
def wordOfFormat (f : Format) (w : Nat) : Option TxnWord :=
  if w < 2 ^ f.bits then
    match f with
    | .fa => some (.fa (BitVec.ofNat 3 w))
    | .rca => some (.rca (BitVec.ofNat 65 w))
    | .eng => some (.eng (BitVec.ofNat 36 w))
    | .p2 => some (.p2 (BitVec.ofNat 32 w))
  else none

/-- The transaction word of `nbits` bits (a length of R81) whose bits are those of the number `w`. -/
def tableWord (nbits w : Nat) : Option TxnWord :=
  (formatOfLength nbits).bind fun f => wordOfFormat f w

/-- The instruction the decoder reads from a table word: none where there is no such word or it is refused. -/
def decodeTableWord (nbits w : Nat) : Option Instr :=
  (tableWord nbits w).bind fun tw => (decode tw).toOption

end Sys2Proof
end

