-- ==== Sys2Proof/Machine/Ports.lean ====
section
/-! DEFINITION. The ports of the four blocks, the ENG output record, and the names of operations and output fields (spec 10 R35 to R45; 30 R84). -/

namespace Sys2Proof.Machine

/-- The six operations the ENG op select names (R84). -/
inductive EngOp where
  | add | sub | umul | udiv | smul | sdiv
  deriving DecidableEq, Repr

/-- Every operation of the engine, for the information a fault records (R231). -/
inductive Operation where
  | fa
  | rca32
  | eng (op : EngOp)
  | p2mul
  deriving DecidableEq, Repr

/-- The output ports of FA (R42). -/
inductive FaField where
  | sum | carryOut
  deriving DecidableEq, Repr

/-- The output ports of ENG, one per field of the wide result (R35, R44). -/
inductive EngField where
  | result | supplementalResult | unsignedOverflow | signedOverflow | divideByZero
  deriving DecidableEq, Repr

/-- Every output port of every block, for the information a fault records (R231, R261). -/
inductive OutField where
  | fa (f : FaField)
  | rcaSum
  | eng (f : EngField)
  | p2Y
  deriving DecidableEq, Repr

/-- The wide result: the ENG output record (R35). A field outside the operation's contract is `UNDEF`, which a model holds
as no value (R36): `none` is the spec's own state of the field, not a default. -/
structure WideResult where
  result : Option Half
  supplementalResult : Option Half
  unsignedOverflow : Option Bool
  signedOverflow : Option Bool
  divideByZero : Option Bool
  deriving DecidableEq, Repr

/-- The ports of one FA instance after a transaction: the inputs the host holds and the outputs it may sample (R42, R265);
these five bits are the source's one-bit-adder state (R15, R46). -/
structure FaPorts where
  a : Bool
  b : Bool
  cIn : Bool
  sum : Bool
  carryOut : Bool
  deriving DecidableEq, Repr

/-- The ports of one RCA32 instance after a transaction (R43): there is no carry-out port and no overflow port. -/
structure RcaPorts where
  a : Wide
  b : Wide
  cIn : Bool
  sum : Wide
  deriving DecidableEq, Repr

/-- The ports of one ENG instance after a transaction that completed (R44). -/
structure EngPorts where
  op : EngOp
  a : Half
  b : Half
  out : WideResult
  deriving DecidableEq, Repr

/-- The ports of one P2MUL instance after a transaction that completed (R45). -/
structure P2Ports where
  x : Half
  p : Half
  y : Wide
  deriving DecidableEq, Repr

end Sys2Proof.Machine
end

