-- ==== Sys2Proof/Machine/Script.lean ====
section
/-! DEFINITION. The host program: host variables and host statements, in the notation of spec 95 section 4 (92 D18). -/

namespace Sys2Proof.Machine

/-- A host variable, h0 to h15 (D18). -/
abbrev HVar := Fin 16

/-- What the host drives an input port of `n` bits with: a literal or a host variable (95 section 4). -/
inductive Src (n : Nat) where
  | lit (v : BitVec n)
  | var (h : HVar)
  deriving DecidableEq, Repr

/-- What the host drives a block's input ports with in one transaction (95 section 4), and the output fields it then copies into
host variables. The 32-bit outputs of RCA32 and P2MUL are shown as values only, so they have no captures. -/
inductive Drive where
  /-- `FA s1, s2, s3 -> sum:hD, carry_out:hE`. -/
  | fa (a b cIn : Src 1) (caps : List (FaField × HVar))
  /-- `RCA32 s1, s2, s3`. -/
  | rca32 (a b : Src 32) (cIn : Src 1)
  /-- `OP s1, s2 -> field:hD, …`, the op select driven with the 4-bit value `op` (R44). -/
  | eng (op : BitVec 4) (a b : Src 16) (caps : List (EngField × HVar))
  /-- `P2MUL s1, s2`. -/
  | p2mul (x p : Src 16)
  deriving DecidableEq, Repr

/-- One host statement. A jump's label is the position of the statement it names (log entry 4); a transaction and a read
name the instance they are about (R244, log entry 7). -/
inductive Stmt where
  /-- A transaction on instance `inst` of a block (R265, R270). -/
  | transact (inst : Nat) (d : Drive)
  /-- A host read of an FA output on its own (R261, R271, log entry 8). -/
  | readFa (inst : Nat) (f : FaField) (dst : HVar)
  /-- A host read of the RCA32 sum (R261, R271); 32 bits fit no host variable, so it is a value only. -/
  | readRca (inst : Nat)
  /-- A host read of an ENG output field on its own (R234, R271). -/
  | readEng (inst : Nat) (f : EngField) (dst : HVar)
  /-- A host read of the P2MUL product (R261, R271); a value only. -/
  | readP2 (inst : Nat)
  /-- `hD <- literal`. -/
  | assign (dst : HVar) (v : Half)
  /-- `if hX == 0 goto L`. -/
  | ifZero (x : HVar) (target : Nat)
  /-- `if hX != 0 goto L`. -/
  | ifNonzero (x : HVar) (target : Nat)
  /-- `goto L`. -/
  | goto (target : Nat)
  /-- `halt`: the end of the run (R272). -/
  | halt
  deriving DecidableEq, Repr

end Sys2Proof.Machine
end

