-- ==== Sys2Proof/Machine/State.lean ====
section
/-! DEFINITION. The state of the modelled system as plain data: the build parameter, the ports of every block instance after its last transaction, the host's variables and program, and the record of faults (spec 10 R30 to R49; 60 R235; 70 R261, R272; 92 D18). The engine itself holds no state between transactions (R34). -/

namespace Sys2Proof.Machine

/-- The instances of one block (any number of them, R244), each with the ports of its last transaction: sorted by instance number.
An instance not listed has no output: it has had no transaction (R261), or its last one was faulted (R232, R233). -/
abbrev Bank (α : Type) := List (Nat × α)

/-- The canonical form of a bank: instance numbers strictly rising. -/
abbrev BankWf {α : Type} (b : Bank α) : Prop := b.Pairwise fun p q => p.1 < q.1

/-- The three model faults, a closed type (R231). All three err toward unprovable (safe): the model asserts no value where the
hardware's outputs are unconstrained. `step` records each and the run goes on (R235). -/
inductive Fault where
  /-- Raised by P2MUL, UDIV and SDIV on an illegal power-of-two operand, which it records (R232). Safe. -/
  | preconditionViolated (op : Operation) (operand : Half)
  /-- Raised by an ENG transaction whose op code is reserved in this build (R233). Safe. -/
  | reservedOp (op : BitVec 4)
  /-- Raised by a host read of an `UNDEF` field, with the operation that produced the record (R234), or, with no operation, of an
  output of an instance that shows none (R261). Safe. -/
  | readUndefinedField (op : Option Operation) (field : OutField)
  deriving DecidableEq, Repr

/-- The fault codes of R231; they are the spec's own, and the hardware has no cause register. -/
def Fault.code : Fault → Nat
  | .preconditionViolated _ _ => 1
  | .reservedOp _ => 2
  | .readUndefinedField _ _ => 3

/-- The machine: the engine's block instances and the host that drives them (R270). -/
structure State where
  /-- `HAS_SIGNED_MULDIV`, fixed when the engine is built (R8, R32, log entry 1). -/
  hasSignedMulDiv : Bool
  /-- The FA instances (R42). -/
  fa : Bank FaPorts
  /-- The RCA32 instances (R43). -/
  rca : Bank RcaPorts
  /-- The ENG instances (R44). -/
  eng : Bank EngPorts
  /-- The P2MUL instances (R45). -/
  p2 : Bank P2Ports
  /-- The instance the host's transaction is performed on (the model's own field, log entry 7). -/
  sel : Nat
  /-- The host variables h0 to h15 (D18). -/
  hvars : Vector Half 16
  /-- The host program (D18). -/
  prog : List Stmt
  /-- The position of the host statement to run next (D18). -/
  hpc : Nat
  /-- The faults recorded in this run, oldest first; never cleared (R235, R272). -/
  faults : List Fault
  /-- How many free values have been taken (the model's own field, log entry 18). -/
  draws : Nat
  deriving DecidableEq, Repr

/-- Why a step has no meaning in this model. -/
inductive Refusal where
  /-- An instruction not modelled yet. Raised by nothing: every instruction has its meaning. Safe. -/
  | notModelled (mnemonic : String)
  deriving DecidableEq, Repr

/-- What a transaction or a step of this machine answers. -/
abbrev Result := Host.Outcome State Fault Refusal

/-- The start of a run (R260 to R262): no transaction has been performed, so no instance has an output; the host has no
program, and no fault is recorded. The signed option is built (DESIGN CHOICE, log entry 1), the host variables are 0 (DESIGN
CHOICE, log entry 5), and the host's position, the selected instance and the count of free values are 0 (DESIGN CHOICE, log
entries 4, 7 and 18). -/
def State.reset : State where
  hasSignedMulDiv := true
  fa := []
  rca := []
  eng := []
  p2 := []
  sel := 0
  hvars := Vector.replicate 16 0#16
  prog := []
  hpc := 0
  faults := []
  draws := 0

end Sys2Proof.Machine
end

