-- ==== Sys2Proof/Machine/Flags.lean ====
section
/-! DEFINITION. The overflow flags of ADD and SUB (spec 10 R38, R39; 41 R151, R152, R160). -/

namespace Sys2Proof.Machine

/-- ADD's `unsigned_overflow`: the 32-bit sum of the zero-extended operands is nonzero in bits 31 to 16 (R150, R151). -/
def addUnsignedOverflow (t : Wide) : Bool :=
  t.extractLsb' 16 16 != 0x0000#16

/-- ADD's `signed_overflow`: both operands have one sign and bit 15 of the sum has the other (R150, R152). -/
def addSignedOverflow (a b : Half) (t : Wide) : Bool :=
  a.getLsbD 15 == b.getLsbD 15 && t.getLsbD 15 != a.getLsbD 15

/-- SUB's `unsigned_overflow`: a borrow, taken from the comparison and not from the inner ADD (R158, R160). -/
def subUnsignedOverflow (a b : Half) : Bool :=
  decide (a.toNat < b.toNat)

end Sys2Proof.Machine
end

