-- ==== Sys2Proof/Config.lean ====
section
/-! DEFINITION. What an implementation fixes and the spec leaves open: constants with no body, so that no proof can rest on a value of one. HAS_SIGNED_MULDIV (spec 00 R8) is a field of State instead (log entry 1), so that every statement is about both builds. -/

namespace Sys2Proof.Config

/-- `T_SETTLE`, the time from stable inputs to stable outputs (R9). OPEN; no rule depends on it and nothing in the model
reads it (R266, log entry 10). -/
opaque tSettle : Nat

/-- What LOG2 answers for a value that is not a power of two: implementation-defined (R182), and never observable, because
UDIV, SDIV and P2MUL test the operand first (log entry 11). -/
opaque log2OffDomain : Half → Nat

/-- What an output field's wires carry where the spec constrains nothing and the host takes them all the same (R232, R233, R261;
93 I1, I2, I19): the `n`-th such value of a run, a free value (log entry 18). A 1-bit field carries its bit 0. -/
opaque wireValue : Nat → Half

end Sys2Proof.Config
end

