-- ==== Sys2Proof/Machine/Operands.lean ====
section
/-! DEFINITION. How an operand reaches an operation: literals and host variables on ports, widening, the power-of-two test and LOG2 (spec 10 R42; 30 R83; 42 R180 to R182). -/

namespace Sys2Proof.Machine

/-- The value a source drives a port of `n` bits with. A literal is taken whole (R83). Of a host variable a 1-bit port takes
bit 0 (R42); a 32-bit port takes it zero-extended (DESIGN CHOICE, log entry 6). -/
def srcValue {n : Nat} (src : Src n) (hvars : Vector Half 16) : BitVec n :=
  match src with
  | .lit v => v
  | .var h => (hvars[h]).setWidth n

/-- The value a source drives a 1-bit port with. -/
def srcBit (src : Src 1) (hvars : Vector Half 16) : Bool :=
  (srcValue src hvars).getLsbD 0

/-- `zext_32` (R12): the widening of 16-bit operands into the 32-bit adder (R83, R150). -/
def zext32 (v : Half) : Wide :=
  v.setWidth 32

/-- `is_pow2_16` (R181): exactly one bit of `p` is 1. -/
def isPow2 (p : Half) : Bool :=
  p != 0x0000#16 && (p &&& (p - 0x0001#16)) == 0x0000#16

/-- `LOG2` (R180): the exponent k in 0 to 15 with uint(p) = 2^k. Off that domain the value is implementation-defined and
never observed (R182, log entry 11). -/
def log2 (p : Half) : Nat :=
  ((List.range 16).find? fun k => p == BitVec.twoPow 16 k).getD (Config.log2OffDomain p)

/-- A legal SDIV divisor other than 0: sint(b) = 2^k for k in 0 to 14 (R208). -/
def isPosPow2 (b : Half) : Bool :=
  !b.getLsbD 15 && isPow2 b

/-- A 1-bit output as a host variable shows it: 0 or 1 (95 section 4, log entry 6). -/
def bitHalf (v : Bool) : Half :=
  if v then 0x0001#16 else 0x0000#16

end Sys2Proof.Machine
end

