-- ==== Sys2Proof/Machine/Ops.lean ====
section
/-! DEFINITION. The named operations every meaning is built from: the full adder and the ripple-carry adder, raising and recording a model fault, the banks of instances, and the host's variables, position and reads of outputs (spec 40 R120, R125; 60 R231 to R236; 70 R261, R271). -/

namespace Sys2Proof.Machine

/-- The one-bit full adder `FA(a, b, c)` (R120): `(sum, cout)`. -/
def fullAdd (a b cIn : Bool) : Bool × Bool :=
  ((a ^^ b) ^^ cIn, (a && b) || (b && cIn) || (a && cIn))

/-- `acc with bit i set to s` (R125). -/
def withBit (acc : Wide) (i : Nat) (s : Bool) : Wide :=
  if s then acc ||| BitVec.twoPow 32 i else acc &&& ~~~(BitVec.twoPow 32 i)

/-- The accumulator and the running carry of RCA32 after the first `n` positions, bit 0 first (R125, R127). -/
def ripple (a b : Wide) (cIn : Bool) : Nat → Wide × Bool
  | 0 => (0x00000000#32, cIn)
  | i + 1 =>
    let before := ripple a b cIn i
    let now := fullAdd (a.getLsbD i) (b.getLsbD i) before.2
    (withBit before.1 i now.1, now.2)

/-- `RCA32(a, b, c)`: 32 FA steps, the carry out of bit 31 dropped (R125, R128). -/
def rca32 (a b : Wide) (cIn : Bool) : Wide :=
  (ripple a b cIn 32).1

/-- `raise`: the transaction has no outcome but the fault (R13, R231), which `step` then records (R235). There is no trap: no state
is saved and nothing is entered (R230, R238). -/
def raise (f : Fault) : Result :=
  .fault f

/-- The ports of an instance, if it has had a transaction. -/
def bankGet {α : Type} (k : Nat) : Bank α → Option α
  | [] => none
  | (j, v) :: rest => if j = k then some v else bankGet k rest

/-- The bank with an instance's ports replaced, in canonical form. -/
def bankPut {α : Type} (k : Nat) (v : α) : Bank α → Bank α
  | [] => [(k, v)]
  | (j, u) :: rest =>
    if k < j then (k, v) :: (j, u) :: rest
    else if k = j then (k, v) :: rest
    else (j, u) :: bankPut k v rest

/-- The bank without an instance's ports: it shows no output. -/
def bankDrop {α : Type} (k : Nat) (b : Bank α) : Bank α :=
  b.filter fun e => e.1 != k

/-- The ports of FA instance `k` after its last transaction. -/
def State.faAt (s : State) (k : Nat) : Option FaPorts := bankGet k s.fa

/-- The ports of RCA32 instance `k` after its last transaction. -/
def State.rcaAt (s : State) (k : Nat) : Option RcaPorts := bankGet k s.rca

/-- The ports of ENG instance `k` after its last transaction. -/
def State.engAt (s : State) (k : Nat) : Option EngPorts := bankGet k s.eng

/-- The ports of P2MUL instance `k` after its last transaction. -/
def State.p2At (s : State) (k : Nat) : Option P2Ports := bankGet k s.p2

/-- The host addresses instance `k` (R270). -/
def State.select (s : State) (k : Nat) : State := { s with sel := k }

/-- The addressed FA instance completes a transaction. -/
def State.putFa (s : State) (p : FaPorts) : State := { s with fa := bankPut s.sel p s.fa }

/-- The addressed RCA32 instance completes a transaction. -/
def State.putRca (s : State) (p : RcaPorts) : State := { s with rca := bankPut s.sel p s.rca }

/-- The addressed ENG instance completes a transaction with a fresh record: no field keeps an earlier value (R36). -/
def State.putEng (s : State) (p : EngPorts) : State := { s with eng := bankPut s.sel p s.eng }

/-- The addressed P2MUL instance completes a transaction. -/
def State.putP2 (s : State) (p : P2Ports) : State := { s with p2 := bankPut s.sel p s.p2 }

/-- The addressed FA instance shows no output. -/
def State.dropFa (s : State) : State := { s with fa := bankDrop s.sel s.fa }

/-- The addressed RCA32 instance shows no output. -/
def State.dropRca (s : State) : State := { s with rca := bankDrop s.sel s.rca }

/-- The addressed ENG instance shows no output: a faulted transaction produces no output record (R232, R233). -/
def State.dropEng (s : State) : State := { s with eng := bankDrop s.sel s.eng }

/-- The addressed P2MUL instance shows no output: a faulted transaction produces none (R232). -/
def State.dropP2 (s : State) : State := { s with p2 := bankDrop s.sel s.p2 }

/-- A fault is recorded, for the rest of the run (R235). -/
def State.record (s : State) (f : Fault) : State := { s with faults := s.faults ++ [f] }

/-- A host variable's value. -/
def State.getVar (s : State) (h : HVar) : Half := s.hvars[h]

/-- The host assigns a variable. -/
def State.setVar (s : State) (h : HVar) (v : Half) : State := { s with hvars := s.hvars.set h v }

/-- The host goes on at position `n` of its program. -/
def State.goTo (s : State) (n : Nat) : State := { s with hpc := n }

/-- The host goes on at the next statement. -/
def State.advance (s : State) : State := s.goTo (s.hpc + 1)

/-- A host variable takes a free value, so the next free value is another one (log entry 18). -/
def State.setFree (s : State) (h : HVar) (v : Half) : State :=
  { s with hvars := s.hvars.set h v, draws := s.draws + 1 }

/-- The next free value, as a 1-bit field carries it (log entry 18). -/
def State.freeBit (s : State) : Half := bitHalf ((Config.wireValue s.draws).getLsbD 0)

/-- What an ENG output field carries where nothing constrains it: a free value of the field's width (log entry 18). -/
def State.freeEng (s : State) : EngField → Half
  | .result => Config.wireValue s.draws
  | .supplementalResult => Config.wireValue s.draws
  | .unsignedOverflow => s.freeBit
  | .signedOverflow => s.freeBit
  | .divideByZero => s.freeBit

/-- An output port of FA. -/
def faField (p : FaPorts) : FaField → Bool
  | .sum => p.sum
  | .carryOut => p.carryOut

/-- A field of the wide result as the host reads it: none where it is `UNDEF` (R36). -/
def engField (out : WideResult) : EngField → Option Half
  | .result => out.result
  | .supplementalResult => out.supplementalResult
  | .unsignedOverflow => out.unsignedOverflow.map bitHalf
  | .signedOverflow => out.signedOverflow.map bitHalf
  | .divideByZero => out.divideByZero.map bitHalf

/-- A host read of an FA output; where the instance shows none it is `ReadUndefinedField` (R261). -/
def readFa (s : State) (k : Nat) (f : FaField) : Except Fault Half :=
  match s.faAt k with
  | some p => .ok (bitHalf (faField p f))
  | none => .error (.readUndefinedField none (.fa f))

/-- A host read of the RCA32 sum (R261). -/
def readRca (s : State) (k : Nat) : Except Fault Wide :=
  match s.rcaAt k with
  | some p => .ok p.sum
  | none => .error (.readUndefinedField none .rcaSum)

/-- A host read of an ENG output field: `ReadUndefinedField` where the transaction that produced the record left it `UNDEF`
(R234, R263), and where the instance shows no output (R261). -/
def readEng (s : State) (k : Nat) (f : EngField) : Except Fault Half :=
  match s.engAt k with
  | none => .error (.readUndefinedField none (.eng f))
  | some p =>
    match engField p.out f with
    | some v => .ok v
    | none => .error (.readUndefinedField (some (.eng p.op)) (.eng f))

/-- A host read of the P2MUL product (R261). -/
def readP2 (s : State) (k : Nat) : Except Fault Wide :=
  match s.p2At k with
  | some p => .ok p.y
  | none => .error (.readUndefinedField none .p2Y)

/-- A host read whose value goes to a host variable. A fault of the read is recorded against the read, and the variable takes the
free value that the field carries (R234, R235, log entry 18). -/
def State.store (s : State) (dst : HVar) (free : Half) : Except Fault Half → State
  | .ok v => s.setVar dst v
  | .error f => (s.record f).setFree dst free

/-- A host read whose 32-bit value is only looked at; a fault of the read is recorded (R235). -/
def State.look (s : State) : Except Fault Wide → State
  | .ok _ => s
  | .error f => s.record f

/-- The captures of an FA transaction, left to right (95 section 4, log entry 16). -/
def captureFa (k : Nat) : List (FaField × HVar) → State → State
  | [], s => s
  | (f, d) :: rest, s => captureFa k rest (s.store d s.freeBit (readFa s k f))

/-- The captures of an ENG transaction, left to right (95 section 4, log entry 16); capturing an `UNDEF` field is a host read of it
(R234). -/
def captureEng (k : Nat) : List (EngField × HVar) → State → State
  | [], s => s
  | (f, d) :: rest, s => captureEng k rest (s.store d (s.freeEng f) (readEng s k f))

/-- The captures of a faulted ENG transaction: each variable takes what its field carries, and no further fault is recorded, since a
transaction raises at most one (R236, log entry 18). -/
def looseEng : List (EngField × HVar) → State → State
  | [], s => s
  | (f, d) :: rest, s => looseEng rest (s.setFree d (s.freeEng f))

end Sys2Proof.Machine
end

