-- ==== Sys2Proof/Machine/AddSubtract.lean ====
section
/-! DEFINITION. The meanings of ENG ADD and SUB (spec 41). -/

namespace Sys2Proof.Machine

/-- The 32-bit sum ADD takes its fields from: both operands zero-extended, carry-in 0 (R150). -/
def addSum (a b : Half) : Wide :=
  rca32 (zext32 a) (zext32 b) false

/-- The output record of ADD (R150). -/
def addOut (a b : Half) : WideResult :=
  let t := addSum a b
  { result := some (t.extractLsb' 0 16)
    supplementalResult := none
    unsignedOverflow := some (addUnsignedOverflow t)
    signedOverflow := some (addSignedOverflow a b t)
    divideByZero := some false }

/-- The subtrahend's two's complement, `ADD(~b, 1).result`; that inner ADD's flags are dropped (R158, R159). -/
def subNegate (b : Half) : Half :=
  (addSum (~~~b) 0x0001#16).extractLsb' 0 16

/-- The output record of SUB: `ADD(a, nb)` with the borrow in place of its unsigned overflow (R158, R160, R161). -/
def subOut (a b : Half) : WideResult :=
  let s := addOut a (subNegate b)
  { result := s.result
    supplementalResult := none
    unsignedOverflow := some (subUnsignedOverflow a b)
    signedOverflow := s.signedOverflow
    divideByZero := some false }

/-- ADD (R150): raises nothing. -/
def execAdd (a b : Half) (s : State) : Result :=
  .next (s.putEng { op := .add, a := a, b := b, out := addOut a b })

/-- SUB (R158): raises nothing. -/
def execSub (a b : Half) (s : State) : Result :=
  .next (s.putEng { op := .sub, a := a, b := b, out := subOut a b })

end Sys2Proof.Machine
end

