-- ==== Sys2Proof/Machine/AdderChain.lean ====
section
/-! DEFINITION. The meanings of FA and RCA32 (spec 40). -/

namespace Sys2Proof.Machine

/-- FA (R120): total over its inputs, raises nothing. -/
def execFa (a b cIn : Bool) (s : State) : Result :=
  let out := fullAdd a b cIn
  .next (s.putFa { a := a, b := b, cIn := cIn, sum := out.1, carryOut := out.2 })

/-- RCA32 (R125): defined for every input, raises nothing, wraps silently. -/
def execRca32 (a b : Wide) (cIn : Bool) (s : State) : Result :=
  .next (s.putRca { a := a, b := b, cIn := cIn, sum := rca32 a b cIn })

end Sys2Proof.Machine
end

