-- ==== Sys2Proof/Machine/MultiplyDivide.lean ====
section
/-! DEFINITION. The meanings of ENG UMUL, UDIV, SMUL and SDIV, and of P2MUL (spec 42). -/

namespace Sys2Proof.Machine

/-- The UMUL accumulator after the first `n` multiplier bits: for each set bit i, `a` shifted left by i is added (R185). -/
def umulAcc (a b : Half) : Nat → Wide
  | 0 => 0x00000000#32
  | i + 1 =>
    if b.getLsbD i then rca32 (umulAcc a b i) (zext32 a <<< i) false else umulAcc a b i

/-- The record of a multiply: the 32-bit product split into halves, `divide_by_zero` forced to 0, both overflow flags `UNDEF`
(R185, R203). -/
def productOut (product : Wide) : WideResult where
  result := some (product.extractLsb' 0 16)
  supplementalResult := some (product.extractLsb' 16 16)
  unsignedOverflow := none
  signedOverflow := none
  divideByZero := some false

/-- The record of a divide by a legal nonzero divisor (R196, R208). -/
def quotientOut (quotient remainder : Half) : WideResult where
  result := some quotient
  supplementalResult := some remainder
  unsignedOverflow := none
  signedOverflow := none
  divideByZero := some false

/-- The record of a divide by zero: the flag is set and every other field is `UNDEF` (R196, R199, R208). -/
def zeroDivideOut : WideResult where
  result := none
  supplementalResult := none
  unsignedOverflow := none
  signedOverflow := none
  divideByZero := some true

/-- The quotient of UDIV: a logical right shift (R197). -/
def udivQuotient (a b : Half) : Half :=
  a >>> log2 b

/-- The remainder of UDIV by the power-of-two modulus identity (R196). -/
def udivRemainder (a b : Half) : Half :=
  a &&& (b - 0x0001#16)

/-- The product of SMUL: exact, in 32 bits (R203, R204). -/
def smulProduct (a b : Half) : Wide :=
  BitVec.ofInt 32 (a.toInt * b.toInt)

/-- The exact quotient of SDIV: the magnitude of the dividend shifted right by LOG2 of the divisor (R4), with the dividend's sign,
which rounds toward zero as R208 says; a shift of the signed dividend would not (R210). -/
def sdivQuotient (a b : Half) : Int :=
  let magnitude : Int := Int.ofNat (a.toInt.natAbs >>> log2 b)
  if a.toInt < 0 then -magnitude else magnitude

/-- The exact remainder of SDIV (R208). -/
def sdivRemainder (a b : Half) : Int :=
  a.toInt - sdivQuotient a b * b.toInt

/-- The record of SDIV by a legal nonzero divisor (R208). -/
def sdivOut (a b : Half) : WideResult :=
  quotientOut (BitVec.ofInt 16 (sdivQuotient a b)) (BitVec.ofInt 16 (sdivRemainder a b))

/-- UMUL (R185): any multiplier is legal; raises nothing. -/
def execUmul (a b : Half) (s : State) : Result :=
  .next (s.putEng { op := .umul, a := a, b := b, out := productOut (umulAcc a b 16) })

/-- P2MUL (R190): an operand that is not a power of two, 0 included (R191), raises. -/
def execP2mul (x p : Half) (s : State) : Result :=
  if isPow2 p then .next (s.putP2 { x := x, p := p, y := zext32 x <<< log2 p })
  else raise (.preconditionViolated .p2mul p)

/-- UDIV (R196): a zero divisor sets the flag and raises nothing (R199); a divisor that is neither 0 nor a power of two
raises. -/
def execUdiv (a b : Half) (s : State) : Result :=
  if b = 0x0000#16 then .next (s.putEng { op := .udiv, a := a, b := b, out := zeroDivideOut })
  else if isPow2 b then
    .next (s.putEng { op := .udiv, a := a, b := b, out := quotientOut (udivQuotient a b) (udivRemainder a b) })
  else raise (.preconditionViolated (.eng .udiv) b)

/-- SMUL (R203): reserved where the signed option is not built (R87). -/
def execSmul (a b : Half) (s : State) : Result :=
  if s.hasSignedMulDiv then
    .next (s.putEng { op := .smul, a := a, b := b, out := productOut (smulProduct a b) })
  else raise (.reservedOp 0x4#4)

/-- SDIV (R208): reserved where the signed option is not built (R87), checked before the divisor (R236); a divisor other than 0
and the positive powers of two raises, 0x8000 included. -/
def execSdiv (a b : Half) (s : State) : Result :=
  if s.hasSignedMulDiv then
    if b = 0x0000#16 then .next (s.putEng { op := .sdiv, a := a, b := b, out := zeroDivideOut })
    else if isPosPow2 b then
      .next (s.putEng { op := .sdiv, a := a, b := b, out := sdivOut a b })
    else raise (.preconditionViolated (.eng .sdiv) b)
  else raise (.reservedOp 0x5#4)

end Sys2Proof.Machine
end

