-- ==== Sys2Proof/Machine/Dispatch.lean ====
section
/-! DEFINITION. One arm per transaction: the meaning of each row of spec/opcode_table.json. -/

namespace Sys2Proof.Machine

/-- The meaning of a transaction on the instance the host addresses. -/
def exec (i : Instr) (s : State) : Host.Outcome State Fault Refusal :=
  match i with
  | .fa a b cIn => Sys2Proof.Machine.execFa a b cIn s
  | .rca32 a b cIn => Sys2Proof.Machine.execRca32 a b cIn s
  | .add a b => Sys2Proof.Machine.execAdd a b s
  | .sub a b => Sys2Proof.Machine.execSub a b s
  | .umul a b => Sys2Proof.Machine.execUmul a b s
  | .p2mul x p => Sys2Proof.Machine.execP2mul x p s
  | .udiv a b => Sys2Proof.Machine.execUdiv a b s
  | .smul a b => Sys2Proof.Machine.execSmul a b s
  | .sdiv a b => Sys2Proof.Machine.execSdiv a b s

end Sys2Proof.Machine
end

