-- ==== Sys2Proof/Machine/Statements.lean ====
section
/-! DEFINITION. What each host statement does: a transaction drives a block's ports, is decoded and run, and its outputs are captured or its fault recorded; the others are the host's own (spec 60 R235; 70 R265, R270 to R272; 92 D18; 95 section 4). -/

namespace Sys2Proof.Machine

/-- The transaction word the host drives a block's ports with: every port, at its full width (R66, R81). -/
def driveWord (hvars : Vector Half 16) : Drive → TxnWord
  | .fa a b cIn _ => .fa (packFa (srcBit a hvars) (srcBit b hvars) (srcBit cIn hvars))
  | .rca32 a b cIn => .rca (packRca (srcValue a hvars) (srcValue b hvars) (srcBit cIn hvars))
  | .eng op a b _ => .eng (packEng op (srcValue a hvars) (srcValue b hvars))
  | .p2mul x p => .p2 (packP2 (srcValue x hvars) (srcValue p hvars))

/-- The fault of a word that selects no operation (R86, R233). -/
def decodeFault : DecodeError → Fault
  | .reservedOp op => .reservedOp op

/-- The copies into host variables that a transaction on instance `k` names, once it has completed (95 section 4). -/
def captures (k : Nat) (d : Drive) (s : State) : State :=
  match d with
  | .fa _ _ _ caps => captureFa k caps s
  | .rca32 _ _ _ => s
  | .eng _ _ _ caps => captureEng k caps s
  | .p2mul _ _ => s

/-- A faulted transaction on the addressed instance: that instance shows no output, and the host variables an ENG transaction's
captures name take free values (R232, R233; 93 I19; log entry 18). It changes no other instance (R238). No FA or RCA32
transaction is faulted (R236). -/
def noRecord (d : Drive) (s : State) : State :=
  match d with
  | .fa _ _ _ _ => s.dropFa
  | .rca32 _ _ _ => s.dropRca
  | .eng _ _ _ caps => looseEng caps s.dropEng
  | .p2mul _ _ => s.dropP2

/-- What a transaction on instance `k` answers: the driven word is decoded from its op select alone (R85) and run. A reserved op
code raises before anything else (R236). -/
def attempt (k : Nat) (d : Drive) (s : State) : Result :=
  match decode (driveWord s.hvars d) with
  | .ok i => exec i (s.select k)
  | .error e => raise (decodeFault e)

/-- A transaction on instance `k` in the host program. Where it completed, its captures are made; where it raised, the fault is
recorded and the instance shows no output. Either way the host goes on at the next statement (R235). -/
def runTransaction (k : Nat) (d : Drive) (s : State) : Result :=
  match attempt k d s with
  | .next t => .next (captures k d t).advance
  | .fault f => .next (noRecord d ((s.select k).record f)).advance
  | .refused r => .refused r

/-- One host statement: a transaction, a read of an output (R234, R261, R271), or an assignment or jump of the host's own (D18).
`halt` ends the run: the host stays there and issues nothing more (R272). -/
def runStmt (st : Stmt) (s : State) : Result :=
  match st with
  | .transact k d => runTransaction k d s
  | .readFa k f dst => .next (s.store dst s.freeBit (readFa s k f)).advance
  | .readRca k => .next (s.look (readRca s k)).advance
  | .readEng k f dst => .next (s.store dst (s.freeEng f) (readEng s k f)).advance
  | .readP2 k => .next (s.look (readP2 s k)).advance
  | .assign dst v => .next (s.setVar dst v).advance
  | .ifZero x target => .next (if s.getVar x = 0x0000#16 then s.goTo target else s.advance)
  | .ifNonzero x target => .next (if s.getVar x = 0x0000#16 then s.advance else s.goTo target)
  | .goto target => .next (s.goTo target)
  | .halt => .next s

/-- The host statement to run next: none past the end of the host program. -/
def fetch (s : State) : Option Stmt :=
  s.prog[s.hpc]?

/-- What drives a block's ports with the literals of a transaction word and captures nothing. -/
def driveOfWord : TxnWord → Drive
  | .fa w =>
    .fa (.lit (w.extractLsb' 2 1)) (.lit (w.extractLsb' 1 1)) (.lit (w.extractLsb' 0 1)) []
  | .rca w => .rca32 (.lit (w.extractLsb' 32 32)) (.lit (w.extractLsb' 0 32)) (.lit (w.extractLsb' 64 1))
  | .eng w => .eng (w.extractLsb' 32 4) (.lit (w.extractLsb' 16 16)) (.lit (w.extractLsb' 0 16)) []
  | .p2 w => .p2mul (.lit (w.extractLsb' 16 16)) (.lit (w.extractLsb' 0 16))

/-- The host program with the statement at position `n` replaced; where the program ends before `n`, `halt` fills it up. -/
def placeAt (st : Stmt) : Nat → List Stmt → List Stmt
  | 0, [] => [st]
  | 0, _ :: rest => st :: rest
  | n + 1, [] => .halt :: placeAt st n []
  | n + 1, x :: rest => x :: placeAt st n rest

/-- The state whose next host statement is the given one. -/
def placeStmt (s : State) (st : Stmt) : State :=
  { s with prog := placeAt st s.hpc s.prog }

end Sys2Proof.Machine
end

