-- ==== Sys2Proof/Machine/Step.lean ====
section
/-! DEFINITION. One step of the modelled system: the host runs its next statement (spec 70 R270, R272). -/

namespace Sys2Proof.Machine

/-- One step. A fault is recorded and the run goes on (R235). Past the end of the host program the run has ended (R272): the engine
starts nothing by itself (R270), so nothing changes. -/
def step (s : State) : Host.Outcome State Fault Refusal :=
  match fetch s with
  | some st => runStmt st s
  | none => .next s

/-- The state with a transaction, given by its table word, placed where the next step runs it (log entry 9); unchanged where
`nbits` and `w` name no transaction word. -/
def State.withFetchWord (s : State) (nbits w : Nat) : State :=
  match tableWord nbits w with
  | some tw => placeStmt s (.transact 0 (driveOfWord tw))
  | none => s

end Sys2Proof.Machine
end

