-- ==== Sys2Proof/Machine/Asm.lean ====
section
/-! DEFINITION. Writing transactions: words in hexadecimal (spec 30 R82), the mnemonic syntax (R91), and the pseudo-instructions (R92). Texts are lists of characters. -/

namespace Sys2Proof.Machine

/-- A pseudo-instruction (R92). The shift count of SHL and SHRU is 0 to 15. -/
inductive Pseudo where
  | neg (b : Half)
  | inc (a : Half)
  | dec (a : Half)
  | shl (a : Half) (k : Fin 16)
  | shru (a : Half) (k : Fin 16)
  | cmpltu (a b : Half)
  deriving DecidableEq, Repr

/-- The single ENG transaction a pseudo-instruction expands to (R92). -/
def expand : Pseudo → Instr
  | .neg b => .sub 0x0000#16 b
  | .inc a => .add a 0x0001#16
  | .dec a => .sub a 0x0001#16
  | .shl a k => .umul a (BitVec.twoPow 16 k)
  | .shru a k => .udiv a (BitVec.twoPow 16 k)
  | .cmpltu a b => .sub a b

/-- One hexadecimal digit, as a capital. -/
def hexDigit (n : Nat) : Char :=
  if n < 10 then Char.ofNat (48 + n) else Char.ofNat (55 + n)

/-- A number in exactly `n` hexadecimal digits, the most significant first. -/
def hexDigits : Nat → Nat → List Char
  | 0, _ => []
  | n + 1, v => hexDigits n (v / 16) ++ [hexDigit (v % 16)]

/-- A number as `0x` and `n` hexadecimal digits. -/
def hexText (n v : Nat) : List Char :=
  '0' :: 'x' :: hexDigits n v

/-- How many hexadecimal digits a transaction word is written with: as many as its length needs (R82). -/
def wordDigits : Format → Nat
  | .fa => 1
  | .rca => 17
  | .eng => 9
  | .p2 => 8

/-- A transaction word in hexadecimal (R82). -/
def wordText (w : TxnWord) : List Char :=
  hexText (wordDigits w.format) w.toNat

/-- A 1-bit literal. -/
def bitText (b : Bool) : List Char :=
  if b then ['1'] else ['0']

/-- Three operands separated by commas. -/
def operands3 (x y z : List Char) : List Char :=
  x ++ [',', ' '] ++ y ++ [',', ' '] ++ z

/-- Two 16-bit operands separated by a comma. -/
def operands2 (a b : Half) : List Char :=
  hexText 4 a.toNat ++ [',', ' '] ++ hexText 4 b.toNat

/-- A transaction in mnemonic syntax, its operands in hexadecimal (R91). -/
def instrText : Instr → List Char
  | .fa a b cIn => ['F', 'A', ' '] ++ operands3 (bitText a) (bitText b) (bitText cIn)
  | .rca32 a b cIn =>
    ['R', 'C', 'A', '3', '2', ' '] ++ operands3 (hexText 8 a.toNat) (hexText 8 b.toNat) (bitText cIn)
  | .add a b => ['A', 'D', 'D', ' '] ++ operands2 a b
  | .sub a b => ['S', 'U', 'B', ' '] ++ operands2 a b
  | .umul a b => ['U', 'M', 'U', 'L', ' '] ++ operands2 a b
  | .p2mul x p => ['P', '2', 'M', 'U', 'L', ' '] ++ operands2 x p
  | .udiv a b => ['U', 'D', 'I', 'V', ' '] ++ operands2 a b
  | .smul a b => ['S', 'M', 'U', 'L', ' '] ++ operands2 a b
  | .sdiv a b => ['S', 'D', 'I', 'V', ' '] ++ operands2 a b

/-- The value of a digit in a base of at most 16; both cases of the letters are read (log entry 14). -/
def digitValue (base : Nat) (c : Char) : Option Nat :=
  let n := c.toNat
  let v := if 48 ≤ n ∧ n ≤ 57 then n - 48 else if 65 ≤ n ∧ n ≤ 70 then n - 55 else if 97 ≤ n ∧ n ≤ 102 then n - 87 else 16
  if v < base then some v else none

/-- The number a list of digits stands for, after the digits already read. -/
def digitsValue (base : Nat) : List Char → Nat → Option Nat
  | [], acc => some acc
  | c :: rest, acc => (digitValue base c).bind fun d => digitsValue base rest (acc * base + d)

/-- A literal: `0x` and hexadecimal digits, decimal digits, or `-` and decimal digits (R91). -/
def literal : List Char → Option Int
  | [] => none
  | '0' :: 'x' :: c :: rest => (digitsValue 16 (c :: rest) 0).map Int.ofNat
  | '-' :: c :: rest => (digitsValue 10 (c :: rest) 0).map fun n => -Int.ofNat n
  | cs => (digitsValue 10 cs 0).map Int.ofNat

/-- A literal in a 16-bit field: a negative decimal literal `-n` stands for `bits_16(-n)` (R91); a literal too wide for the field is
none (log entry 14). -/
def literal16 (cs : List Char) : Option Half :=
  (literal cs).bind fun z => if z < 65536 then some (BitVec.ofInt 16 z) else none

/-- A literal in a 32-bit field: not negative, and no wider than the field (log entry 14). -/
def literal32 (cs : List Char) : Option Wide :=
  (literal cs).bind fun z => if 0 ≤ z ∧ z < 4294967296 then some (BitVec.ofInt 32 z) else none

/-- A literal in a 1-bit field: 0 or 1 (R91). -/
def literal1 (cs : List Char) : Option Bool :=
  (literal cs).bind fun z => if z = 0 then some false else if z = 1 then some true else none

/-- A shift count of SHL and SHRU: 0 to 15 (R92). -/
def literalShift (cs : List Char) : Option (Fin 16) :=
  (literal cs).bind fun z => if h : z.toNat < 16 ∧ 0 ≤ z then some ⟨z.toNat, h.1⟩ else none

/-- The parts of a text between commas. Every space is dropped, also one inside a literal, so `1 2` reads as 12 (DESIGN CHOICE, log
entry 14: R91 gives no grammar of blanks). -/
def splitCommas : List Char → List Char → List (List Char)
  | [], part => [part.reverse]
  | ',' :: rest, part => part.reverse :: splitCommas rest []
  | ' ' :: rest, part => splitCommas rest part
  | c :: rest, part => splitCommas rest (c :: part)

/-- An operation of two 16-bit operands. -/
def two16 (mk : Half → Half → Instr) : List (List Char) → Option Instr
  | [x, y] => (literal16 x).bind fun a => (literal16 y).map fun b => mk a b
  | _ => none

/-- A pseudo-instruction of one 16-bit operand. -/
def one16 (mk : Half → Pseudo) : List (List Char) → Option Instr
  | [x] => (literal16 x).map fun a => expand (mk a)
  | _ => none

/-- A pseudo-instruction of a 16-bit operand and a shift count. -/
def shift16 (mk : Half → Fin 16 → Pseudo) : List (List Char) → Option Instr
  | [x, y] => (literal16 x).bind fun a => (literalShift y).map fun k => expand (mk a k)
  | _ => none

/-- FA's three 1-bit operands. -/
def threeBits : List (List Char) → Option Instr
  | [x, y, z] =>
    (literal1 x).bind fun a => (literal1 y).bind fun b => (literal1 z).map fun c => .fa a b c
  | _ => none

/-- RCA32's two 32-bit operands and its carry-in. -/
def two32Bit : List (List Char) → Option Instr
  | [x, y, z] =>
    (literal32 x).bind fun a => (literal32 y).bind fun b => (literal1 z).map fun c => .rca32 a b c
  | _ => none

/-- The transaction a mnemonic and its operands name, pseudo-instructions expanded (R91, R92). -/
def assembleParts (mnemonic : List Char) (ops : List (List Char)) : Option Instr :=
  if mnemonic = ['F', 'A'] then threeBits ops
  else if mnemonic = ['R', 'C', 'A', '3', '2'] then two32Bit ops
  else if mnemonic = ['A', 'D', 'D'] then two16 .add ops
  else if mnemonic = ['S', 'U', 'B'] then two16 .sub ops
  else if mnemonic = ['U', 'M', 'U', 'L'] then two16 .umul ops
  else if mnemonic = ['P', '2', 'M', 'U', 'L'] then two16 .p2mul ops
  else if mnemonic = ['U', 'D', 'I', 'V'] then two16 .udiv ops
  else if mnemonic = ['S', 'M', 'U', 'L'] then two16 .smul ops
  else if mnemonic = ['S', 'D', 'I', 'V'] then two16 .sdiv ops
  else if mnemonic = ['N', 'E', 'G'] then one16 .neg ops
  else if mnemonic = ['I', 'N', 'C'] then one16 .inc ops
  else if mnemonic = ['D', 'E', 'C'] then one16 .dec ops
  else if mnemonic = ['S', 'H', 'L'] then shift16 .shl ops
  else if mnemonic = ['S', 'H', 'R', 'U'] then shift16 .shru ops
  else if mnemonic = ['C', 'M', 'P', 'L', 'T', 'U'] then
    two16 (fun a b => expand (.cmpltu a b)) ops
  else none

/-- The transaction a line of text stands for (R91, R92), and none where the line is not of the syntax. What follows `;` is a comment;
a line that begins with a blank or uses a tab is refused (DESIGN CHOICE, log entry 14: R91 gives no grammar of blanks). -/
def assemble (line : List Char) : Option Instr :=
  let code := line.takeWhile (· != ';')
  assembleParts (code.takeWhile (· != ' ')) (splitCommas (code.dropWhile (· != ' ')) [])

end Sys2Proof.Machine
end

