-- ==== Sys2Proof/Safety.lean ====
section
/-! DEFINITION. What counts as a good run, the laws of each operation written as integer arithmetic and apart from its meaning, what ports and fields carry as numbers, what a faulted transaction leaves, and the invariants of the machine (spec 10 R34, R37, R42, R49; 40 R126; 41 R151 to R162; 42 R186 to R209; 60 R235, R238; 70 R272). Every claim about a run takes the hold-and-settle rule as a premise (R265, log entry 10). -/

namespace Sys2Proof.Machine

/-- A run of `k` steps is good iff no fault is recorded (R272). -/
def GoodRun (k : Nat) (s : State) : Prop :=
  ∃ t : State, Host.Core.run Sys2Proof.core k s = .next t ∧ t.faults = []

/-- Every bank is in canonical form. -/
abbrev BanksWf (s : State) : Prop :=
  BankWf s.fa ∧ BankWf s.rca ∧ BankWf s.eng ∧ BankWf s.p2

/-- uint(p) = 2^k for some k in 0 to 15 (R13). -/
abbrev PowerOfTwo (p : Half) : Prop :=
  ∃ k, k < 16 ∧ p.toNat = 2 ^ k

/-- sint(b) = 2^k for some k in 0 to 14: the legal SDIV divisors other than 0 (R208). -/
abbrev PositivePowerOfTwo (b : Half) : Prop :=
  ∃ k, k < 15 ∧ b.toNat = 2 ^ k

/-- An integer that does not fit in 16 bits as a two's-complement number. -/
abbrev OutsideSigned16 (z : Int) : Prop :=
  z < -32768 ∨ 32767 < z

/-- What R151 to R153 and R37 say of ADD. -/
def addLaw (a b : Half) : WideResult where
  result := some (BitVec.ofNat 16 (a.toNat + b.toNat))
  supplementalResult := none
  unsignedOverflow := some (decide (2 ^ 16 ≤ a.toNat + b.toNat))
  signedOverflow := some (decide (OutsideSigned16 (a.toInt + b.toInt)))
  divideByZero := some false

/-- What R160 to R162 and R37 say of SUB: at the one subtrahend 0x8000 `signed_overflow` is bit 15 of the minuend. -/
def subLaw (a b : Half) : WideResult where
  result := some (BitVec.ofInt 16 ((a.toNat : Int) - b.toNat))
  supplementalResult := none
  unsignedOverflow := some (decide (a.toNat < b.toNat))
  signedOverflow :=
    some (if b = 0x8000#16 then a.getLsbD 15 else decide (OutsideSigned16 (a.toInt - b.toInt)))
  divideByZero := some false

/-- What R186 and R37 say of UMUL: the exact product in two halves. -/
def umulLaw (a b : Half) : WideResult where
  result := some (BitVec.ofNat 16 (a.toNat * b.toNat % 2 ^ 16))
  supplementalResult := some (BitVec.ofNat 16 (a.toNat * b.toNat / 2 ^ 16))
  unsignedOverflow := none
  signedOverflow := none
  divideByZero := some false

/-- What R198 and R37 say of UDIV by a power of two: the exact quotient and the remainder. -/
def udivLaw (a b : Half) : WideResult where
  result := some (BitVec.ofNat 16 (a.toNat / b.toNat))
  supplementalResult := some (BitVec.ofNat 16 (a.toNat % b.toNat))
  unsignedOverflow := none
  signedOverflow := none
  divideByZero := some false

/-- What R204 and R37 say of SMUL: the exact signed product in two halves. -/
def smulLaw (a b : Half) : WideResult where
  result := some (BitVec.ofInt 16 (a.toInt * b.toInt))
  supplementalResult := some (BitVec.ofInt 16 (a.toInt * b.toInt / 2 ^ 16))
  unsignedOverflow := none
  signedOverflow := none
  divideByZero := some false

/-- What R208 and R37 say of SDIV by a positive power of two: quotient and remainder truncate toward zero. -/
def sdivLaw (a b : Half) : WideResult where
  result := some (BitVec.ofInt 16 (a.toInt.tdiv b.toInt))
  supplementalResult := some (BitVec.ofInt 16 (a.toInt.tmod b.toInt))
  unsignedOverflow := none
  signedOverflow := none
  divideByZero := some false

/-- What R199 and R37 say of UDIV and SDIV by zero: only the flag is set. -/
def zeroDivideLaw : WideResult where
  result := none
  supplementalResult := none
  unsignedOverflow := none
  signedOverflow := none
  divideByZero := some true

/-- The record an ENG operation gives in a build, and none where it raises (R37, R232, R233). -/
def engLaw (hasSignedMulDiv : Bool) (op : EngOp) (a b : Half) : Option WideResult :=
  match op with
  | .add => some (addLaw a b)
  | .sub => some (subLaw a b)
  | .umul => some (umulLaw a b)
  | .udiv => if b.toNat = 0 then some zeroDivideLaw else if PowerOfTwo b then some (udivLaw a b) else none
  | .smul => if hasSignedMulDiv then some (smulLaw a b) else none
  | .sdiv =>
    if hasSignedMulDiv then
      if b.toNat = 0 then some zeroDivideLaw else if PositivePowerOfTwo b then some (sdivLaw a b) else none
    else none

/-- The ENG transaction of an operation on two operands (R84). -/
def engInstr (op : EngOp) (a b : Half) : Instr :=
  match op with
  | .add => .add a b
  | .sub => .sub a b
  | .umul => .umul a b
  | .udiv => .udiv a b
  | .smul => .smul a b
  | .sdiv => .sdiv a b

/-- The number a source drives a port of `n` bits with: a literal whole; of a host variable the low `n` bits, so a 1-bit port takes
bit 0 (R42), a 16-bit port all of it, and a 32-bit port its value zero-extended (DESIGN CHOICE, log entry 6). -/
def portNumber {n : Nat} (hvars : Vector Half 16) : Src n → Nat
  | .lit v => v.toNat
  | .var h => hvars[h].toNat % 2 ^ n

/-- The number a field of an ENG record shows the host, a flag as 0 or 1 (log entry 6): none where the field is `UNDEF` (R35,
R36). -/
def engNumber (out : WideResult) : EngField → Option Nat
  | .result => out.result.map BitVec.toNat
  | .supplementalResult => out.supplementalResult.map BitVec.toNat
  | .unsignedOverflow => out.unsignedOverflow.map Bool.toNat
  | .signedOverflow => out.signedOverflow.map Bool.toNat
  | .divideByZero => out.divideByZero.map Bool.toNat

/-- The number an FA output shows the host, 0 or 1 (R42). -/
def faNumber (p : FaPorts) : FaField → Nat
  | .sum => p.sum.toNat
  | .carryOut => p.carryOut.toNat

/-- What a transaction on instance `k` of a block leaves where it raised `f`, but for the host variables: the fault is recorded
behind the earlier ones (R235), the instance shows no output (R232, R233), every other instance of every block shows what it
showed (R238), and the host has gone on. -/
def FaultRecorded (block : Format) (k : Nat) (f : Fault) (s t : State) : Prop :=
  t.faults = s.faults ++ [f] ∧
  (∀ j, t.faAt j = if block = .fa ∧ j = k then none else s.faAt j) ∧
  (∀ j, t.rcaAt j = if block = .rca ∧ j = k then none else s.rcaAt j) ∧
  (∀ j, t.engAt j = if block = .eng ∧ j = k then none else s.engAt j) ∧
  (∀ j, t.p2At j = if block = .p2 ∧ j = k then none else s.p2At j) ∧
  t.hasSignedMulDiv = s.hasSignedMulDiv ∧ t.prog = s.prog ∧ t.hpc = s.hpc + 1

/-- FA's outputs are the arithmetic function of its inputs (R122). -/
def FaSettled (p : FaPorts) : Prop :=
  2 * p.carryOut.toNat + p.sum.toNat = p.a.toNat + p.b.toNat + p.cIn.toNat

/-- RCA32's output is the function of its inputs that R126 gives. -/
def RcaSettled (p : RcaPorts) : Prop :=
  p.sum.toNat = (p.a.toNat + p.b.toNat + p.cIn.toNat) % 2 ^ 32

/-- ENG's outputs are the function of its inputs and the build parameter that the operation rules give (R34). -/
def EngSettled (hasSignedMulDiv : Bool) (p : EngPorts) : Prop :=
  engLaw hasSignedMulDiv p.op p.a p.b = some p.out

/-- P2MUL's operand is legal and its output is the exact product (R190, R193). -/
def P2Settled (p : P2Ports) : Prop :=
  PowerOfTwo p.p ∧ p.y.toNat = p.x.toNat * p.p.toNat

/-- Every output of every instance is the function of that instance's own inputs and of `HAS_SIGNED_MULDIV` (R34, R49). -/
def Settled (s : State) : Prop :=
  (∀ e ∈ s.fa, FaSettled e.2) ∧ (∀ e ∈ s.rca, RcaSettled e.2) ∧
  (∀ e ∈ s.eng, EngSettled s.hasSignedMulDiv e.2) ∧ (∀ e ∈ s.p2, P2Settled e.2)

end Sys2Proof.Machine
end

