-- ==== Sys2Proof/Certificates/Slice0/Obligations.lean ====
section
/-! DEFINITION. The statements for the provers, from the numbered rules of spec/. -/

open Sys2Proof Sys2Proof.Machine

/-! ### Transaction words -/

/-- Words written out from R81 and R84, one or two of each format, and what they decode to; 0x0FFFF0001 is R82's own example. -/
def Obligations.WrittenOutWordsDecode : Prop :=
  decode (.fa 0b110#3) = .ok (.fa true true false) ∧
  decode (.rca 0x1FFFFFFFF00000002#65) = .ok (.rca32 0xFFFFFFFF#32 0x00000002#32 true) ∧
  decode (.eng 0x0FFFF0001#36) = .ok (.add 0xFFFF#16 0x0001#16) ∧
  decode (.eng 0x3000A0008#36) = .ok (.udiv 0x000A#16 0x0008#16) ∧
  decode (.p2 0x12340010#32) = .ok (.p2mul 0x1234#16 0x0010#16) ∧
  decode (.eng 0x600010001#36) = .error (.reservedOp 0x6#4)

/-- R81: the position of every field in each of the four formats, and R80's fixed lengths. -/
def Obligations.TransactionWordsPackFields : Prop :=
  (∀ a b c : Bool, (packFa a b c).toNat = a.toNat * 2 ^ 2 + b.toNat * 2 ^ 1 + c.toNat) ∧
  (∀ (a b : Wide) (c : Bool), (packRca a b c).toNat = c.toNat * 2 ^ 64 + a.toNat * 2 ^ 32 + b.toNat) ∧
  (∀ (op : BitVec 4) (a b : Half), (packEng op a b).toNat = op.toNat * 2 ^ 32 + a.toNat * 2 ^ 16 + b.toNat) ∧
  (∀ x p : Half, (packP2 x p).toNat = x.toNat * 2 ^ 16 + p.toNat)

/-- R81, R84: no bit of an operand is lost between encoding and decoding, for every transaction. -/
def Obligations.DecodeOfEncodeIsTheTransaction : Prop :=
  ∀ i : Instr, decode (encode i) = .ok i

/-- R85, R88, R89: a word that decodes is the word of what it decodes to, so no two words mean one transaction. -/
def Obligations.EncodeOfDecodeIsTheWord : Prop :=
  ∀ (w : TxnWord) (i : Instr), decode w = .ok i → encode i = w

/-- R84, R85, R86: the op select alone chooses the operation, `a` and `b` pass unchanged, and 0x6 to 0xF select none. -/
def Obligations.OpSelectChoosesTheOperation : Prop :=
  ∀ (op : BitVec 4) (a b : Half),
    (op.toNat = 0 → decode (.eng (packEng op a b)) = .ok (.add a b)) ∧
    (op.toNat = 1 → decode (.eng (packEng op a b)) = .ok (.sub a b)) ∧
    (op.toNat = 2 → decode (.eng (packEng op a b)) = .ok (.umul a b)) ∧
    (op.toNat = 3 → decode (.eng (packEng op a b)) = .ok (.udiv a b)) ∧
    (op.toNat = 4 → decode (.eng (packEng op a b)) = .ok (.smul a b)) ∧
    (op.toNat = 5 → decode (.eng (packEng op a b)) = .ok (.sdiv a b)) ∧
    (6 ≤ op.toNat → decode (.eng (packEng op a b)) = .error (.reservedOp op))

/-! ### FA and RCA32 -/

/-- R120: FA completes in every state with sum = a XOR b XOR c_in and carry_out = majority(a, b, c_in); its word is the FA
format's. -/
def Obligations.FaExecutes : Prop :=
  ∀ (a b c : Bool) (s : State),
    encode (.fa a b c) = .fa (packFa a b c) ∧
    exec (.fa a b c) s =
      .next (s.putFa
        { a := a, b := b, cIn := c, sum := (a ^^ b) ^^ c, carryOut := (a && b) || (b && c) || (a && c) })

/-- R121: the eight rows of the truth table, each word run in any state. -/
def Obligations.FaTruthTable : Prop :=
  ∀ s : State, ∀ row ∈
      [(0x0#3, false, false, false, false, false), (0x1#3, false, false, true, true, false),
       (0x2#3, false, true, false, true, false), (0x3#3, false, true, true, false, true),
       (0x4#3, true, false, false, true, false), (0x5#3, true, false, true, false, true),
       (0x6#3, true, true, false, false, true), (0x7#3, true, true, true, true, true)],
    decode (.fa row.1) = .ok (.fa row.2.1 row.2.2.1 row.2.2.2.1) ∧
    exec (.fa row.2.1 row.2.2.1 row.2.2.2.1) s =
      .next (s.putFa
        { a := row.2.1, b := row.2.2.1, cIn := row.2.2.2.1, sum := row.2.2.2.2.1, carryOut := row.2.2.2.2.2 })

/-- R122: 2 * carry_out + sum = a + b + c_in, on what the addressed FA instance shows after the transaction. -/
def Obligations.FaArithmetic : Prop :=
  ∀ (a b c : Bool) (s : State), ∃ (t : State) (p : FaPorts),
    exec (.fa a b c) s = .next t ∧ t.faAt s.sel = some p ∧
    2 * p.carryOut.toNat + p.sum.toNat = a.toNat + b.toNat + c.toNat

/-- R126: the ripple chain of 32 full adders and the closed form (a + b + c_in) mod 2^32 agree on every input, and RCA32
completes with that sum in every state. -/
def Obligations.RippleChainIsModularAddition : Prop :=
  ∀ (a b : Wide) (c : Bool) (s : State),
    rca32 a b c = BitVec.ofNat 32 (a.toNat + b.toNat + c.toNat) ∧
    exec (.rca32 a b c) s =
      .next (s.putRca { a := a, b := b, cIn := c, sum := BitVec.ofNat 32 (a.toNat + b.toNat + c.toNat) })

/-- R125, R127: after the first n positions, bit 0 first, the accumulator and the running carry together are the sum of the
operands' low n bits and the carry-in; at n = 32 the carry is the one R128 discards. -/
def Obligations.RipplePartialSums : Prop :=
  ∀ (a b : Wide) (c : Bool) (n : Nat), n ≤ 32 →
    (ripple a b c n).1.toNat + 2 ^ n * (ripple a b c n).2.toNat = a.toNat % 2 ^ n + b.toNat % 2 ^ n + c.toNat

/-! ### ADD and SUB -/

/-- R150 with R151 to R153: ADD completes in every state with the wrapped sum, both flags by their testable forms, and
`divide_by_zero` 0; its op code is 0x0. -/
def Obligations.AddExecutes : Prop :=
  ∀ (a b : Half) (s : State),
    encode (.add a b) = .eng (packEng 0x0#4 a b) ∧
    exec (.add a b) s = .next (s.putEng { op := .add, a := a, b := b, out := addLaw a b })

/-- R151: the flag is that bits 31 to 16 of the 32-bit sum are nonzero, which is bit 16 of it, which is a sum of 2^16 or more;
bits 31 to 17 are always 0. -/
def Obligations.AddUnsignedOverflowForms : Prop :=
  ∀ a b : Half,
    (addOut a b).unsignedOverflow = some ((addSum a b).extractLsb' 16 16 != 0#16) ∧
    (addSum a b).extractLsb' 17 15 = 0#15 ∧
    (addOut a b).unsignedOverflow = some ((addSum a b).getLsbD 16) ∧
    (addOut a b).unsignedOverflow = some (decide (2 ^ 16 ≤ a.toNat + b.toNat))

/-- R152: the three forms of ADD's signed overflow agree: operands of one sign and a result of the other, a carry into the sign
bit that differs from the carry out of it, and a signed sum outside [-32768, 32767]. -/
def Obligations.AddSignedOverflowForms : Prop :=
  ∀ a b : Half,
    (addOut a b).signedOverflow =
      some (a.msb == b.msb && (a + b).msb != a.msb) ∧
    (addOut a b).signedOverflow =
      some (decide (2 ^ 15 ≤ a.toNat % 2 ^ 15 + b.toNat % 2 ^ 15) != decide (2 ^ 16 ≤ a.toNat + b.toNat)) ∧
    (addOut a b).signedOverflow = some (decide (a.toInt + b.toInt < -32768 ∨ 32767 < a.toInt + b.toInt))

/-- R153: ADD's result is (a + b) mod 2^16, and exchanging the operands changes no field it sets. -/
def Obligations.AddResultAndCommutes : Prop :=
  ∀ (a b : Half) (s : State), ∃ out : WideResult,
    exec (.add a b) s = .next (s.putEng { op := .add, a := a, b := b, out := out }) ∧
    exec (.add b a) s = .next (s.putEng { op := .add, a := b, b := a, out := out }) ∧
    out.result = some (BitVec.ofNat 16 ((a.toNat + b.toNat) % 2 ^ 16))

/-- R154: the outcomes of ADD's flags by the signs of the operands and of the result. -/
def Obligations.AddFlagsBySign : Prop :=
  ∀ (a b : Half) (s : State), ∃ (out : WideResult) (r : Half) (uo so : Bool),
    exec (.add a b) s = .next (s.putEng { op := .add, a := a, b := b, out := out }) ∧
    out.result = some r ∧ out.unsignedOverflow = some uo ∧ out.signedOverflow = some so ∧
    (a.msb = false ∧ b.msb = false → uo = false ∧ (so = true ↔ r.msb = true)) ∧
    (a.msb = false ∧ b.msb = true → (uo = true ↔ r.msb = false) ∧ so = false) ∧
    (a.msb = true ∧ b.msb = false → (uo = true ↔ r.msb = false) ∧ so = false) ∧
    (a.msb = true ∧ b.msb = true → uo = true ∧ (so = true ↔ r.msb = false))

/-- R158 with R160 to R162: SUB completes in every state with the wrapped difference, the borrow, and the signed overflow ADD gives
for the sum with the negated subtrahend; its op code is 0x1. -/
def Obligations.SubExecutes : Prop :=
  ∀ (a b : Half) (s : State),
    encode (.sub a b) = .eng (packEng 0x1#4 a b) ∧
    exec (.sub a b) s = .next (s.putEng { op := .sub, a := a, b := b, out := subLaw a b }) ∧
    (subLaw a b).signedOverflow = (addOut a (subNegate b)).signedOverflow

/-- R159: the negated subtrahend is bits_16(2^16 - uint(b)) for b other than 0, it is 0 for b = 0, and 0x8000 for 0x8000. -/
def Obligations.SubNegatesTheSubtrahend : Prop :=
  (∀ b : Half, b ≠ 0#16 → (subNegate b).toNat = (2 ^ 16 - b.toNat) % 2 ^ 16) ∧
  subNegate 0x0000#16 = 0x0000#16 ∧ subNegate 0x8000#16 = 0x8000#16

/-- R160: SUB's unsigned overflow is the borrow; for b other than 0 the carry of the inner ADD is 1 iff there is no borrow, and at
b = 0 that carry is 0 although there is no borrow. -/
def Obligations.SubBorrowIsNotTheInnerCarry : Prop :=
  ∀ a b : Half,
    (subOut a b).unsignedOverflow = some (decide (a.toNat < b.toNat)) ∧
    (b ≠ 0#16 → (addOut a (subNegate b)).unsignedOverflow = some (decide (b.toNat ≤ a.toNat))) ∧
    (addOut a (subNegate 0#16)).unsignedOverflow = some false

/-- R161: SUB's signed overflow is what ADD produces for the sum with the negated subtrahend: the mathematical overflow for every
subtrahend but 0x8000, and there bit 15 of the minuend, the complement of the mathematical overflow. -/
def Obligations.SubSignedOverflowAtEverySubtrahend : Prop :=
  ∀ a b : Half,
    (subOut a b).signedOverflow = (addOut a (subNegate b)).signedOverflow ∧
    (b ≠ 0x8000#16 →
      (subOut a b).signedOverflow = some (decide (a.toInt - b.toInt < -32768 ∨ 32767 < a.toInt - b.toInt))) ∧
    (subOut a 0x8000#16).signedOverflow = some a.msb ∧
    (subOut a 0x8000#16).signedOverflow = some (!decide (a.toInt + 32768 < -32768 ∨ 32767 < a.toInt + 32768))

/-- R162: subtracting 0 gives the minuend with no overflow; subtracting b and then adding b gives the minuend back; the result is
bits_16(uint(a) - uint(b)). -/
def Obligations.SubLaws : Prop :=
  ∀ (a b : Half) (s : State),
    (∃ out : WideResult, exec (.sub a 0#16) s = .next (s.putEng { op := .sub, a := a, b := 0#16, out := out }) ∧
      out.result = some a ∧ out.unsignedOverflow = some false ∧ out.signedOverflow = some false) ∧
    (∃ (t u : State) (p q : EngPorts) (r : Half),
      exec (.sub a b) s = .next t ∧ t.engAt s.sel = some p ∧ p.out.result = some r ∧
      r = BitVec.ofInt 16 ((a.toNat : Int) - b.toNat) ∧
      exec (.add r b) t = .next u ∧ u.engAt s.sel = some q ∧ q.out.result = some a)

/-! ### UMUL and P2MUL -/

/-- R185: UMUL completes in every state, for every multiplier, with the exact 32-bit product split into its low and high halves; its
op code is 0x2. -/
def Obligations.UmulExecutes : Prop :=
  ∀ (a b : Half) (s : State),
    encode (.umul a b) = .eng (packEng 0x2#4 a b) ∧
    exec (.umul a b) s = .next (s.putEng { op := .umul, a := a, b := b, out := umulLaw a b })

/-- R186: the accumulator after n multiplier bits is the product with the multiplier's low n bits, so no addition wraps; at the end
the two halves make the whole product. -/
def Obligations.UmulAccumulatorNeverWraps : Prop :=
  ∀ a b : Half,
    (∀ n, n ≤ 16 → (umulAcc a b n).toNat = a.toNat * (b.toNat % 2 ^ n)) ∧
    ∃ lo hi : Half, (productOut (umulAcc a b 16)).result = some lo ∧
      (productOut (umulAcc a b 16)).supplementalResult = some hi ∧
      lo.toNat + hi.toNat * 2 ^ 16 = a.toNat * b.toNat

/-- R190 to R192: P2MUL completes on every power of two with the value shifted left by its exponent, in 32 bits with no bit lost, and
raises on every other operand, 0 included. -/
def Obligations.P2mulExecutes : Prop :=
  ∀ (x p : Half) (s : State),
    encode (.p2mul x p) = .p2 (packP2 x p) ∧
    (∀ k, k < 16 → p.toNat = 2 ^ k →
      exec (.p2mul x p) s = .next (s.putP2 { x := x, p := p, y := BitVec.ofNat 32 (x.toNat * 2 ^ k) }) ∧
      x.toNat * 2 ^ k < 2 ^ 31) ∧
    (¬ PowerOfTwo p → exec (.p2mul x p) s = .fault (.preconditionViolated .p2mul p))

/-- R193: uint(y) = uint(x) * uint(p), and the halves of y are the fields of UMUL x, p. -/
def Obligations.P2mulAgreesWithUmul : Prop :=
  ∀ (x p : Half) (s : State), PowerOfTwo p →
    ∃ (t u : State) (q : P2Ports) (e : EngPorts),
      exec (.p2mul x p) s = .next t ∧ t.p2At s.sel = some q ∧ q.y.toNat = x.toNat * p.toNat ∧
      exec (.umul x p) s = .next u ∧ u.engAt s.sel = some e ∧
      e.out.result = some (q.y.extractLsb' 0 16) ∧ e.out.supplementalResult = some (q.y.extractLsb' 16 16)

/-! ### UDIV -/

/-- R196 with R197 and R199: UDIV by 0 sets the flag alone; by a power of two it completes with the exact quotient and the
remainder; any other divisor raises. -/
def Obligations.UdivExecutes : Prop :=
  ∀ (a b : Half) (s : State),
    encode (.udiv a b) = .eng (packEng 0x3#4 a b) ∧
    (b = 0#16 → exec (.udiv a b) s = .next (s.putEng { op := .udiv, a := a, b := b, out := zeroDivideLaw })) ∧
    (PowerOfTwo b → exec (.udiv a b) s = .next (s.putEng { op := .udiv, a := a, b := b, out := udivLaw a b })) ∧
    (b ≠ 0#16 → ¬ PowerOfTwo b → exec (.udiv a b) s = .fault (.preconditionViolated (.eng .udiv) b))

/-- R197, R196: the quotient is the logical right shift by the divisor's exponent and the remainder the bits below it. -/
def Obligations.UdivShiftsLogically : Prop :=
  ∀ (a b : Half) (s : State) (k : Nat), k < 16 → b.toNat = 2 ^ k →
    exec (.udiv a b) s = .next (s.putEng
      { op := .udiv
        a := a
        b := b
        out :=
          { result := some (a >>> k)
            supplementalResult := some (a &&& (b - 1#16))
            unsignedOverflow := none
            signedOverflow := none
            divideByZero := some false } })

/-- R198: result * p + supplemental_result = d and supplemental_result < p for every power of two p, and dividing by 0 sets
`divide_by_zero`. -/
def Obligations.UdivLaws : Prop :=
  ∀ (d p : Half) (s : State),
    (PowerOfTwo p → ∃ (t : State) (e : EngPorts) (q r : Half),
      exec (.udiv d p) s = .next t ∧ t.engAt s.sel = some e ∧
      e.out.result = some q ∧ e.out.supplementalResult = some r ∧
      q.toNat * p.toNat + r.toNat = d.toNat ∧ r.toNat < p.toNat) ∧
    (∃ (t : State) (e : EngPorts),
      exec (.udiv d 0#16) s = .next t ∧ t.engAt s.sel = some e ∧ e.out.divideByZero = some true)

/-! ### SMUL and SDIV -/

/-- R203, R87: where the option is built SMUL completes with the exact signed product in two halves; where it is not, it raises
ReservedOp(0x4). -/
def Obligations.SmulExecutes : Prop :=
  ∀ (a b : Half) (s : State),
    encode (.smul a b) = .eng (packEng 0x4#4 a b) ∧
    (s.hasSignedMulDiv = true →
      exec (.smul a b) s = .next (s.putEng { op := .smul, a := a, b := b, out := smulLaw a b })) ∧
    (s.hasSignedMulDiv = false → exec (.smul a b) s = .fault (.reservedOp 0x4#4))

/-- R204: the two halves of SMUL together are the exact product as a 32-bit two's-complement value, within the range the rule
gives. -/
def Obligations.SmulProductIsExact : Prop :=
  ∀ (a b : Half) (s : State), s.hasSignedMulDiv = true →
    ∃ (t : State) (e : EngPorts) (lo hi : Half),
      exec (.smul a b) s = .next t ∧ t.engAt s.sel = some e ∧
      e.out.result = some lo ∧ e.out.supplementalResult = some hi ∧
      (hi ++ lo : BitVec 32).toInt = a.toInt * b.toInt ∧
      -1073709056 ≤ a.toInt * b.toInt ∧ a.toInt * b.toInt ≤ 1073741824

/-- R203's corner case: SMUL's low half is UMUL's low half for the same operands. -/
def Obligations.SmulLowHalfIsUmulLowHalf : Prop :=
  ∀ (a b : Half) (s : State), s.hasSignedMulDiv = true →
    ∃ (t u : State) (e f : EngPorts),
      exec (.smul a b) s = .next t ∧ t.engAt s.sel = some e ∧
      exec (.umul a b) s = .next u ∧ u.engAt s.sel = some f ∧ e.out.result = f.out.result

/-- R208, R87: where the option is built SDIV by 0 sets the flag alone, by a positive power of two it completes with the quotient
rounded toward zero and its remainder, and any other divisor raises, 0x8000 included; where the option is not built it raises
ReservedOp(0x5) whatever the divisor. -/
def Obligations.SdivExecutes : Prop :=
  ∀ (a b : Half) (s : State),
    encode (.sdiv a b) = .eng (packEng 0x5#4 a b) ∧
    (s.hasSignedMulDiv = true → b = 0#16 →
      exec (.sdiv a b) s = .next (s.putEng { op := .sdiv, a := a, b := b, out := zeroDivideLaw })) ∧
    (s.hasSignedMulDiv = true → PositivePowerOfTwo b →
      exec (.sdiv a b) s = .next (s.putEng { op := .sdiv, a := a, b := b, out := sdivLaw a b })) ∧
    (s.hasSignedMulDiv = true → b ≠ 0#16 → ¬ PositivePowerOfTwo b →
      exec (.sdiv a b) s = .fault (.preconditionViolated (.eng .sdiv) b)) ∧
    (s.hasSignedMulDiv = false → exec (.sdiv a b) s = .fault (.reservedOp 0x5#4))

/-- R209: for every legal nonzero divisor, q * sint(b) + r = sint(a), |r| < sint(b), r is 0 or has the sign of sint(a), the
quotient fits in 16 bits with |q| at most |sint(a)|, and it is -32768 only for 0x8000 divided by 1. -/
def Obligations.SdivLaws : Prop :=
  ∀ (a b : Half) (s : State), s.hasSignedMulDiv = true → PositivePowerOfTwo b →
    ∃ (t : State) (e : EngPorts) (q r : Half),
      exec (.sdiv a b) s = .next t ∧ t.engAt s.sel = some e ∧
      e.out.result = some q ∧ e.out.supplementalResult = some r ∧
      q.toInt * b.toInt + r.toInt = a.toInt ∧ |r.toInt| < b.toInt ∧
      (r.toInt = 0 ∨ (0 < r.toInt ∧ 0 < a.toInt) ∨ (r.toInt < 0 ∧ a.toInt < 0)) ∧
      |q.toInt| ≤ |a.toInt| ∧ (q.toInt = -32768 → a = 0x8000#16 ∧ b = 1#16)

/-- R210: for a negative dividend whose remainder is not 0, the arithmetic shift gives one less than SDIV's quotient. -/
def Obligations.SdivIsNotAnArithmeticShift : Prop :=
  ∀ (a b : Half) (k : Nat) (s : State),
    s.hasSignedMulDiv = true → k < 15 → b.toNat = 2 ^ k → a.toInt < 0 →
    ∃ (t : State) (e : EngPorts) (q r : Half),
      exec (.sdiv a b) s = .next t ∧ t.engAt s.sel = some e ∧
      e.out.result = some q ∧ e.out.supplementalResult = some r ∧
      (r ≠ 0#16 → (a.sshiftRight k).toInt = q.toInt - 1)

/-! ### Faults -/

/-- R232: `PreconditionViolated` is raised exactly in the rule's three cases, and records the operation and the operand. -/
def Obligations.PreconditionViolatedExactly : Prop :=
  ∀ (i : Instr) (s : State) (op : Operation) (v : Half),
    exec i s = .fault (.preconditionViolated op v) ↔
      (∃ x, i = .p2mul x v ∧ op = .p2mul ∧ ¬ PowerOfTwo v) ∨
      (∃ a, i = .udiv a v ∧ op = .eng .udiv ∧ v ≠ 0#16 ∧ ¬ PowerOfTwo v) ∨
      (∃ a, i = .sdiv a v ∧ op = .eng .sdiv ∧ s.hasSignedMulDiv = true ∧ v ≠ 0#16 ∧ ¬ (v.msb = false ∧ PowerOfTwo v))

/-- R233, R86, R87: an ENG transaction raises `ReservedOp` exactly for 0x6 to 0xF, and for 0x4 and 0x5 where the option is not
built, whatever its operands; it records the op value. -/
def Obligations.ReservedOpExactly : Prop :=
  ∀ (s : State) (k : Nat) (op v : BitVec 4) (a b : Src 16) (caps : List (EngField × HVar)),
    attempt k (.eng op a b caps) s = .fault (.reservedOp v) ↔
      v = op ∧ (6 ≤ op.toNat ∨ (s.hasSignedMulDiv = false ∧ (op.toNat = 4 ∨ op.toNat = 5)))

/-- R236: FA, RCA32, ADD, SUB and UMUL raise nothing; P2MUL and UDIV can raise only `PreconditionViolated`; SMUL only `ReservedOp`;
SDIV without the option raises `ReservedOp` before its divisor is looked at; and no transaction is refused. -/
def Obligations.FaultPriority : Prop :=
  (∀ (i : Instr) (s : State) (r : Refusal), exec i s ≠ .refused r) ∧
  (∀ (i : Instr) (s : State) (f : Fault), exec i s = .fault f →
    match i with
    | .fa _ _ _ | .rca32 _ _ _ | .add _ _ | .sub _ _ | .umul _ _ => False
    | .p2mul _ p => f = .preconditionViolated .p2mul p
    | .udiv _ b => f = .preconditionViolated (.eng .udiv) b
    | .smul _ _ => s.hasSignedMulDiv = false ∧ f = .reservedOp 0x4#4
    | .sdiv _ b =>
      if s.hasSignedMulDiv then f = .preconditionViolated (.eng .sdiv) b else f = .reservedOp 0x5#4)

/-- R235, R272: every step goes on, the record of faults is only added to, and nothing reads it, so what follows a fault runs as it
would without it; so every run goes on with its faults recorded, and a run is good only if each shorter one is. -/
def Obligations.RecordedFaultsStay : Prop :=
  ∀ s : State,
    (∃ (t : State) (new : List Fault), step s = .next t ∧ t.faults = s.faults ++ new ∧
      ∀ earlier : List Fault, step { s with faults := earlier } = .next { t with faults := earlier ++ new }) ∧
    (∀ k : Nat, ∃ (t : State) (new : List Fault), Host.Core.run Sys2Proof.core k s = .next t ∧ t.faults = s.faults ++ new) ∧
    (∀ j k : Nat, GoodRun (j + k) s → GoodRun j s)

/-! ### The output record and host reads -/

/-- R37 to R40: which fields an ENG transaction sets and which it leaves `UNDEF`, and that `divide_by_zero` is written by every
operation: 1 exactly for a division by 0. -/
def Obligations.FieldContract : Prop :=
  ∀ (op : EngOp) (a b : Half) (s t : State), exec (engInstr op a b) s = .next t →
    ∃ out : WideResult, t.engAt s.sel = some { op := op, a := a, b := b, out := out } ∧
      (out.result = none ↔ (op = .udiv ∨ op = .sdiv) ∧ b = 0#16) ∧
      (out.supplementalResult = none ↔ op = .add ∨ op = .sub ∨ ((op = .udiv ∨ op = .sdiv) ∧ b = 0#16)) ∧
      (out.unsignedOverflow = none ↔ op ≠ .add ∧ op ≠ .sub) ∧
      (out.signedOverflow = none ↔ op ≠ .add ∧ op ≠ .sub) ∧
      out.divideByZero = some (decide ((op = .udiv ∨ op = .sdiv) ∧ b = 0#16))

/-- R234, R263, R271: the host's read of an output of an instance that has had a transaction. An ENG field that is set, and each FA
output, goes to the host variable as its value; the 32-bit RCA32 sum and P2MUL product are read as they are. An ENG field that is
`UNDEF` is recorded as `ReadUndefinedField` with the operation and the field, against the read: the record itself stays. That the
variable then holds some value, which is left open, is the model's (log entries 8 and 18). -/
def Obligations.HostReadsOfOutputs : Prop :=
  ∀ (s : State) (k : Nat),
    (∀ (f : EngField) (d : HVar) (p : EngPorts), fetch s = some (.readEng k f d) → s.engAt k = some p →
      (∀ n, engNumber p.out f = some n →
        step s = .next { s with hvars := s.hvars.set d (BitVec.ofNat 16 n), hpc := s.hpc + 1 }) ∧
      (engNumber p.out f = none → ∃ (v : Half) (n : Nat), step s = .next
        { s with
          hvars := s.hvars.set d v
          draws := n
          faults := s.faults ++ [.readUndefinedField (some (.eng p.op)) (.eng f)]
          hpc := s.hpc + 1 })) ∧
    (∀ (f : FaField) (d : HVar) (p : FaPorts), fetch s = some (.readFa k f d) → s.faAt k = some p →
      step s = .next { s with hvars := s.hvars.set d (BitVec.ofNat 16 (faNumber p f)), hpc := s.hpc + 1 }) ∧
    (∀ p : RcaPorts, fetch s = some (.readRca k) → s.rcaAt k = some p →
      readRca s k = .ok p.sum ∧ step s = .next { s with hpc := s.hpc + 1 }) ∧
    (∀ p : P2Ports, fetch s = some (.readP2 k) → s.p2At k = some p →
      readP2 s k = .ok p.y ∧ step s = .next { s with hpc := s.hpc + 1 })

/-- R261: a host read of any output of an instance that shows none is recorded as `ReadUndefinedField`. That the host variable then
holds some value, and that no operation is recorded, are the model's (log entries 8 and 18). -/
def Obligations.ReadBeforeAnyTransactionFaults : Prop :=
  ∀ (s : State) (k : Nat),
    (∀ (f : FaField) (d : HVar), fetch s = some (.readFa k f d) → s.faAt k = none →
      ∃ (v : Half) (n : Nat), step s = .next
        { s with
          hvars := s.hvars.set d v
          draws := n
          faults := s.faults ++ [.readUndefinedField none (.fa f)]
          hpc := s.hpc + 1 }) ∧
    (fetch s = some (.readRca k) → s.rcaAt k = none →
      step s = .next { s with faults := s.faults ++ [.readUndefinedField none .rcaSum], hpc := s.hpc + 1 }) ∧
    (∀ (f : EngField) (d : HVar), fetch s = some (.readEng k f d) → s.engAt k = none →
      ∃ (v : Half) (n : Nat), step s = .next
        { s with
          hvars := s.hvars.set d v
          draws := n
          faults := s.faults ++ [.readUndefinedField none (.eng f)]
          hpc := s.hpc + 1 }) ∧
    (fetch s = some (.readP2 k) → s.p2At k = none →
      step s = .next { s with faults := s.faults ++ [.readUndefinedField none .p2Y], hpc := s.hpc + 1 })

/-! ### The whole machine -/

/-- R34: what a transaction answers and what its instance shows afterwards depend on its inputs and on `HAS_SIGNED_MULDIV` alone:
any two states of one build give the same ports, or raise the same fault. -/
def Obligations.OutputsDependOnInputsAlone : Prop :=
  ∀ (i : Instr) (s t : State), s.hasSignedMulDiv = t.hasSignedMulDiv →
    (∀ f, exec i s = .fault f ↔ exec i t = .fault f) ∧
    (∀ u, exec i s = .next u → ∃ v, exec i t = .next v ∧
      ((∃ p, u = s.putFa p ∧ v = t.putFa p) ∨ (∃ p, u = s.putRca p ∧ v = t.putRca p) ∨
        (∃ p, u = s.putEng p ∧ v = t.putEng p) ∨ (∃ p, u = s.putP2 p ∧ v = t.putP2 p)))

/-- R69, R244: two transactions on different instances or on different blocks give the same state in either order, but for which
instance was addressed last (the model's own field). -/
def Obligations.IndependentTransactionsCommute : Prop :=
  ∀ (i j : Instr) (m n : Nat) (s t u : State),
    (encode i).format ≠ (encode j).format ∨ m ≠ n →
    exec i (s.select m) = .next t → exec j (t.select n) = .next u →
    ∃ v w, exec j (s.select n) = .next v ∧ exec i (v.select m) = .next w ∧ w.select 0 = u.select 0

/-- R68: repeating a transaction with the same inputs gives the same outputs, and changes nothing more. -/
def Obligations.RepeatingATransactionChangesNothing : Prop :=
  ∀ (i : Instr) (s t : State), exec i s = .next t → exec i t = .next t

/-- R34, R49: that every output of every instance is the function of its own inputs is kept by every step. -/
def Obligations.StepKeepsOutputsSettled : Prop :=
  ∀ s t : State, Settled s → step s = .next t → Settled t

/-- The canonical form of the banks of instances (the model's own, log entry 7) is kept by every step. -/
def Obligations.StepKeepsBanksCanonical : Prop :=
  ∀ s t : State, BanksWf s → step s = .next t → BanksWf t

/-- The two invariants hold at the start of a run. -/
def Obligations.ResetMeetsTheInvariants : Prop :=
  Settled State.reset ∧ BanksWf State.reset

/-- R261, R262: a run starts with no transaction performed: no instance has an output, a read of one is `ReadUndefinedField`, and no
fault is recorded. -/
def Obligations.ResetShowsNoOutput : Prop :=
  State.reset.faults = [] ∧
  ∀ k : Nat, State.reset.faAt k = none ∧ State.reset.rcaAt k = none ∧ State.reset.engAt k = none ∧
    State.reset.p2At k = none ∧
    (∀ f, ∃ op, readFa State.reset k f = .error (.readUndefinedField op (.fa f))) ∧
    (∃ op, readRca State.reset k = .error (.readUndefinedField op .rcaSum)) ∧
    (∀ f, ∃ op, readEng State.reset k f = .error (.readUndefinedField op (.eng f))) ∧
    (∃ op, readP2 State.reset k = .error (.readUndefinedField op .p2Y))

/-- R32: `HAS_SIGNED_MULDIV` cannot change while the engine runs. -/
def Obligations.BuildParameterNeverChanges : Prop :=
  ∀ s t : State, step s = .next t → t.hasSignedMulDiv = s.hasSignedMulDiv

/-- R72: no transaction and no host statement changes what the host runs (the host program is the model's, log entry 9). -/
def Obligations.StepKeepsTheHostProgram : Prop :=
  ∀ s t : State, step s = .next t → t.prog = s.prog

/-- A step runs the decoded transaction: the host drives the ports, the word is decoded, and the transaction runs on the addressed
instance. Where it completes, the captures are made and the host goes on, and where it names none
nothing else changes (95 section 4, log entry 9). Where it raises, or its op
code is reserved, the fault is recorded, the addressed instance shows no output, no other instance is changed (R232 to R235,
R238), and no host variable but those an ENG transaction's captures name is (log entry 18). -/
def Obligations.StepRunsTheDecodedTransaction : Prop :=
  ∀ (s : State) (k : Nat) (d : Drive), fetch s = some (.transact k d) →
    (∀ (i : Instr) (t : State), decode (driveWord s.hvars d) = .ok i → exec i (s.select k) = .next t →
      step s = .next (captures k d t).advance ∧
      ((∀ a b c caps, d = .fa a b c caps → caps = []) → (∀ o a b caps, d = .eng o a b caps → caps = []) →
        step s = .next { t with hpc := s.hpc + 1 })) ∧
    (∀ f : Fault,
      (∃ i, decode (driveWord s.hvars d) = .ok i ∧ exec i (s.select k) = .fault f) ∨
        (∃ op, decode (driveWord s.hvars d) = .error (.reservedOp op) ∧ f = .reservedOp op) →
      ∃ t : State, step s = .next t ∧ FaultRecorded (driveWord s.hvars d).format k f s t ∧
        ∀ h : HVar, (∀ o a b caps, d = .eng o a b caps → ∀ c ∈ caps, c.2 ≠ h) → t.hvars[h] = s.hvars[h])

/-- R42, R81, R83, 95 section 4: what the host drives each port with. A literal is driven whole; a host variable drives a 16-bit port
with all its bits, a 1-bit port with its bit 0, and a 32-bit port zero-extended (the model's choice, log entry 6). The driven word
holds the number of each source in the place of its port. -/
def Obligations.SourcesDriveThePorts : Prop :=
  ∀ hvars : Vector Half 16,
    (∀ h : HVar, srcValue (.var h : Src 16) hvars = hvars[h]) ∧
    (∀ h : HVar, srcBit (.var h) hvars = hvars[h].getLsbD 0) ∧
    (∀ h : HVar, (srcValue (.var h : Src 32) hvars).toNat = hvars[h].toNat) ∧
    (∀ (a b c : Src 1) (caps : List (FaField × HVar)),
      (driveWord hvars (.fa a b c caps)).format = .fa ∧
      (driveWord hvars (.fa a b c caps)).toNat =
        portNumber hvars a * 2 ^ 2 + portNumber hvars b * 2 ^ 1 + portNumber hvars c) ∧
    (∀ (a b : Src 32) (c : Src 1),
      (driveWord hvars (.rca32 a b c)).format = .rca ∧
      (driveWord hvars (.rca32 a b c)).toNat =
        portNumber hvars c * 2 ^ 64 + portNumber hvars a * 2 ^ 32 + portNumber hvars b) ∧
    (∀ (op : BitVec 4) (a b : Src 16) (caps : List (EngField × HVar)),
      (driveWord hvars (.eng op a b caps)).format = .eng ∧
      (driveWord hvars (.eng op a b caps)).toNat =
        op.toNat * 2 ^ 32 + portNumber hvars a * 2 ^ 16 + portNumber hvars b) ∧
    (∀ x p : Src 16,
      (driveWord hvars (.p2mul x p)).format = .p2 ∧
      (driveWord hvars (.p2mul x p)).toNat = portNumber hvars x * 2 ^ 16 + portNumber hvars p)

/-- 95 section 4: the captures of an FA or ENG transaction that completed, however many. Each variable takes the number of the field
named with it, a flag 0x0000 or 0x0001 (log entry 6), where no later capture names that variable again (log entry 16); a variable
no capture names is unchanged. Capturing an `UNDEF` field is a host read of it: one fault each is recorded, in the order of the
list (R234, log entry 16), and what the variable then holds is left open (log entry 18). Nothing else changes. -/
def Obligations.CaptureCopiesTheNamedField : Prop :=
  (∀ (s t : State) (k : Nat) (op : EngOp) (x y : Half) (o : BitVec 4) (a b : Src 16) (caps : List (EngField × HVar))
      (p : EngPorts),
    fetch s = some (.transact k (.eng o a b caps)) →
    decode (driveWord s.hvars (.eng o a b caps)) = .ok (engInstr op x y) →
    exec (engInstr op x y) (s.select k) = .next t → t.engAt k = some p →
    ∃ (hv : Vector Half 16) (n : Nat),
      step s = .next
        { t with
          hvars := hv
          draws := n
          faults := s.faults ++
            (caps.filter fun c => (engNumber p.out c.1).isNone).map
              fun c => .readUndefinedField (some (.eng op)) (.eng c.1)
          hpc := s.hpc + 1 } ∧
      (∀ (before after : List (EngField × HVar)) (f : EngField) (d : HVar) (v : Nat),
        caps = before ++ (f, d) :: after → (∀ c ∈ after, c.2 ≠ d) → engNumber p.out f = some v → hv[d].toNat = v) ∧
      ∀ h : HVar, (∀ c ∈ caps, c.2 ≠ h) → hv[h] = s.hvars[h]) ∧
  (∀ (s t : State) (k : Nat) (x y z : Bool) (a b c : Src 1) (caps : List (FaField × HVar)) (p : FaPorts),
    fetch s = some (.transact k (.fa a b c caps)) →
    decode (driveWord s.hvars (.fa a b c caps)) = .ok (.fa x y z) →
    exec (.fa x y z) (s.select k) = .next t → t.faAt k = some p →
    ∃ hv : Vector Half 16,
      step s = .next { t with hvars := hv, hpc := s.hpc + 1 } ∧
      (∀ (before after : List (FaField × HVar)) (f : FaField) (d : HVar),
        caps = before ++ (f, d) :: after → (∀ c ∈ after, c.2 ≠ d) → hv[d].toNat = faNumber p f) ∧
      ∀ h : HVar, (∀ c ∈ caps, c.2 ≠ h) → hv[h] = s.hvars[h])

/-- D18, 95 section 4: assignment, the conditional jumps, `goto` and `halt` change the host's variables and position as written and
nothing else. -/
def Obligations.HostStatements : Prop :=
  ∀ (s : State) (x : HVar) (v : Half) (n : Nat),
    (fetch s = some (.assign x v) → step s = .next { s with hvars := s.hvars.set x v, hpc := s.hpc + 1 }) ∧
    (fetch s = some (.ifZero x n) →
      step s = .next { s with hpc := if s.hvars[x] = 0#16 then n else s.hpc + 1 }) ∧
    (fetch s = some (.ifNonzero x n) →
      step s = .next { s with hpc := if s.hvars[x] = 0#16 then s.hpc + 1 else n }) ∧
    (fetch s = some (.goto n) → step s = .next { s with hpc := n }) ∧
    (fetch s = some .halt → step s = .next s)

/-- R270: the engine starts nothing by itself: where the host has no statement to run, nothing changes. -/
def Obligations.NothingRunsWithoutTheHost : Prop :=
  ∀ s : State, s.prog.length ≤ s.hpc → step s = .next s

/-- The placed transaction is the one the next step runs, on instance 0 (log entry 9, DESIGN CHOICE). Where it raises, its fault is
recorded behind the earlier ones, instance 0 of its block shows no output (log entry 3, DEDUCED), and the host goes on; every other
instance of every block, the host variables, the program and the build parameter are kept. Nothing is said then of the model's own
fields `sel` and `draws`. -/
def Obligations.PlacedTransactionRunsNext : Prop :=
  ∀ (s : State) (nbits w : Nat) (i : Instr), decodeTableWord nbits w = some i →
    (∀ t, exec i ((s.withFetchWord nbits w).select 0) = .next t → step (s.withFetchWord nbits w) = .next t.advance) ∧
    (∀ f, exec i ((s.withFetchWord nbits w).select 0) = .fault f →
      ∃ t : State, step (s.withFetchWord nbits w) = .next t ∧
        FaultRecorded (encode i).format 0 f (s.withFetchWord nbits w) t ∧ t.hvars = s.hvars)

/-- R92: each pseudo-instruction expands to one ENG transaction, whose fields are what the table says the host reads. -/
def Obligations.PseudoInstructions : Prop :=
  ∀ (a b : Half) (k : Fin 16) (s : State),
    (∃ out, exec (expand (.neg b)) s = .next (s.putEng { op := .sub, a := 0#16, b := b, out := out }) ∧
      out.result = some (BitVec.ofInt 16 (-(b.toNat : Int)))) ∧
    (exec (expand (.inc a)) s = .next (s.putEng { op := .add, a := a, b := 1#16, out := addLaw a 1#16 })) ∧
    (exec (expand (.dec a)) s = .next (s.putEng { op := .sub, a := a, b := 1#16, out := subLaw a 1#16 })) ∧
    (∃ out, exec (expand (.shl a k)) s =
        .next (s.putEng { op := .umul, a := a, b := BitVec.ofNat 16 (2 ^ k.val), out := out }) ∧
      out.result = some (a <<< k.val) ∧ out.supplementalResult = some (BitVec.ofNat 16 (a.toNat * 2 ^ k.val / 2 ^ 16))) ∧
    (∃ out, exec (expand (.shru a k)) s =
        .next (s.putEng { op := .udiv, a := a, b := BitVec.ofNat 16 (2 ^ k.val), out := out }) ∧
      out.result = some (a >>> k.val) ∧ out.supplementalResult = some (BitVec.ofNat 16 (a.toNat % 2 ^ k.val))) ∧
    (∃ out, exec (expand (.cmpltu a b)) s = .next (s.putEng { op := .sub, a := a, b := b, out := out }) ∧
      out.unsignedOverflow = some (decide (a.toNat < b.toNat)))

/-! ### Frames: this hardware has no memory (R60); what can change is an instance's ports, the host's variables, its position and the record of faults -/

/-- FA changes the addressed FA instance alone: every other FA instance, every other block, the host's variables, program and
position, the build parameter and the record of faults are as before (R34, R68). -/
def Obligations.FaFrame : Prop :=
  ∀ (a b c : Bool) (s t : State), exec (.fa a b c) s = .next t →
    (∀ k, k ≠ s.sel → t.faAt k = s.faAt k) ∧ t.rca = s.rca ∧ t.eng = s.eng ∧ t.p2 = s.p2 ∧ t.sel = s.sel ∧
    t.hvars = s.hvars ∧ t.prog = s.prog ∧ t.hpc = s.hpc ∧ t.hasSignedMulDiv = s.hasSignedMulDiv ∧
    t.faults = s.faults ∧ t.draws = s.draws

/-- RCA32 changes the addressed RCA32 instance alone. -/
def Obligations.Rca32Frame : Prop :=
  ∀ (a b : Wide) (c : Bool) (s t : State), exec (.rca32 a b c) s = .next t →
    (∀ k, k ≠ s.sel → t.rcaAt k = s.rcaAt k) ∧ t.fa = s.fa ∧ t.eng = s.eng ∧ t.p2 = s.p2 ∧ t.sel = s.sel ∧
    t.hvars = s.hvars ∧ t.prog = s.prog ∧ t.hpc = s.hpc ∧ t.hasSignedMulDiv = s.hasSignedMulDiv ∧
    t.faults = s.faults ∧ t.draws = s.draws

/-- ADD, SUB, UMUL, UDIV, SMUL and SDIV change the addressed ENG instance alone, and its record is fresh: it rests on no earlier
record (R36). -/
def Obligations.EngFrame : Prop :=
  ∀ (op : EngOp) (a b : Half) (s t : State), exec (engInstr op a b) s = .next t →
    (∀ k, k ≠ s.sel → t.engAt k = s.engAt k) ∧ t.fa = s.fa ∧ t.rca = s.rca ∧ t.p2 = s.p2 ∧ t.sel = s.sel ∧
    t.hvars = s.hvars ∧ t.prog = s.prog ∧ t.hpc = s.hpc ∧ t.hasSignedMulDiv = s.hasSignedMulDiv ∧
    t.faults = s.faults ∧ t.draws = s.draws ∧
    t.engAt s.sel = (engLaw s.hasSignedMulDiv op a b).map fun out => { op := op, a := a, b := b, out := out }

/-- P2MUL changes the addressed P2MUL instance alone. -/
def Obligations.P2mulFrame : Prop :=
  ∀ (x p : Half) (s t : State), exec (.p2mul x p) s = .next t →
    (∀ k, k ≠ s.sel → t.p2At k = s.p2At k) ∧ t.fa = s.fa ∧ t.rca = s.rca ∧ t.eng = s.eng ∧ t.sel = s.sel ∧
    t.hvars = s.hvars ∧ t.prog = s.prog ∧ t.hpc = s.hpc ∧ t.hasSignedMulDiv = s.hasSignedMulDiv ∧
    t.faults = s.faults ∧ t.draws = s.draws
end

