-- ==== Sys2Proof/Laws/State.lean ====
section
/-! SUPPORT. One lemma per field per update of State, each by rfl, so that no later proof unfolds a record update. -/

namespace Sys2Proof.Machine

@[simp] theorem State.select_hasSignedMulDiv (s : State) (k : Nat) : (s.select k).hasSignedMulDiv = s.hasSignedMulDiv := rfl
@[simp] theorem State.select_fa (s : State) (k : Nat) : (s.select k).fa = s.fa := rfl
@[simp] theorem State.select_rca (s : State) (k : Nat) : (s.select k).rca = s.rca := rfl
@[simp] theorem State.select_eng (s : State) (k : Nat) : (s.select k).eng = s.eng := rfl
@[simp] theorem State.select_p2 (s : State) (k : Nat) : (s.select k).p2 = s.p2 := rfl
@[simp] theorem State.select_sel (s : State) (k : Nat) : (s.select k).sel = k := rfl
@[simp] theorem State.select_hvars (s : State) (k : Nat) : (s.select k).hvars = s.hvars := rfl
@[simp] theorem State.select_prog (s : State) (k : Nat) : (s.select k).prog = s.prog := rfl
@[simp] theorem State.select_hpc (s : State) (k : Nat) : (s.select k).hpc = s.hpc := rfl
@[simp] theorem State.select_faults (s : State) (k : Nat) : (s.select k).faults = s.faults := rfl
@[simp] theorem State.select_draws (s : State) (k : Nat) : (s.select k).draws = s.draws := rfl

@[simp] theorem State.putFa_hasSignedMulDiv (s : State) (p : FaPorts) : (s.putFa p).hasSignedMulDiv = s.hasSignedMulDiv := rfl
@[simp] theorem State.putFa_fa (s : State) (p : FaPorts) : (s.putFa p).fa = bankPut s.sel p s.fa := rfl
@[simp] theorem State.putFa_rca (s : State) (p : FaPorts) : (s.putFa p).rca = s.rca := rfl
@[simp] theorem State.putFa_eng (s : State) (p : FaPorts) : (s.putFa p).eng = s.eng := rfl
@[simp] theorem State.putFa_p2 (s : State) (p : FaPorts) : (s.putFa p).p2 = s.p2 := rfl
@[simp] theorem State.putFa_sel (s : State) (p : FaPorts) : (s.putFa p).sel = s.sel := rfl
@[simp] theorem State.putFa_hvars (s : State) (p : FaPorts) : (s.putFa p).hvars = s.hvars := rfl
@[simp] theorem State.putFa_prog (s : State) (p : FaPorts) : (s.putFa p).prog = s.prog := rfl
@[simp] theorem State.putFa_hpc (s : State) (p : FaPorts) : (s.putFa p).hpc = s.hpc := rfl
@[simp] theorem State.putFa_faults (s : State) (p : FaPorts) : (s.putFa p).faults = s.faults := rfl
@[simp] theorem State.putFa_draws (s : State) (p : FaPorts) : (s.putFa p).draws = s.draws := rfl

@[simp] theorem State.putRca_hasSignedMulDiv (s : State) (p : RcaPorts) : (s.putRca p).hasSignedMulDiv = s.hasSignedMulDiv := rfl
@[simp] theorem State.putRca_fa (s : State) (p : RcaPorts) : (s.putRca p).fa = s.fa := rfl
@[simp] theorem State.putRca_rca (s : State) (p : RcaPorts) : (s.putRca p).rca = bankPut s.sel p s.rca := rfl
@[simp] theorem State.putRca_eng (s : State) (p : RcaPorts) : (s.putRca p).eng = s.eng := rfl
@[simp] theorem State.putRca_p2 (s : State) (p : RcaPorts) : (s.putRca p).p2 = s.p2 := rfl
@[simp] theorem State.putRca_sel (s : State) (p : RcaPorts) : (s.putRca p).sel = s.sel := rfl
@[simp] theorem State.putRca_hvars (s : State) (p : RcaPorts) : (s.putRca p).hvars = s.hvars := rfl
@[simp] theorem State.putRca_prog (s : State) (p : RcaPorts) : (s.putRca p).prog = s.prog := rfl
@[simp] theorem State.putRca_hpc (s : State) (p : RcaPorts) : (s.putRca p).hpc = s.hpc := rfl
@[simp] theorem State.putRca_faults (s : State) (p : RcaPorts) : (s.putRca p).faults = s.faults := rfl
@[simp] theorem State.putRca_draws (s : State) (p : RcaPorts) : (s.putRca p).draws = s.draws := rfl

@[simp] theorem State.putEng_hasSignedMulDiv (s : State) (p : EngPorts) : (s.putEng p).hasSignedMulDiv = s.hasSignedMulDiv := rfl
@[simp] theorem State.putEng_fa (s : State) (p : EngPorts) : (s.putEng p).fa = s.fa := rfl
@[simp] theorem State.putEng_rca (s : State) (p : EngPorts) : (s.putEng p).rca = s.rca := rfl
@[simp] theorem State.putEng_eng (s : State) (p : EngPorts) : (s.putEng p).eng = bankPut s.sel p s.eng := rfl
@[simp] theorem State.putEng_p2 (s : State) (p : EngPorts) : (s.putEng p).p2 = s.p2 := rfl
@[simp] theorem State.putEng_sel (s : State) (p : EngPorts) : (s.putEng p).sel = s.sel := rfl
@[simp] theorem State.putEng_hvars (s : State) (p : EngPorts) : (s.putEng p).hvars = s.hvars := rfl
@[simp] theorem State.putEng_prog (s : State) (p : EngPorts) : (s.putEng p).prog = s.prog := rfl
@[simp] theorem State.putEng_hpc (s : State) (p : EngPorts) : (s.putEng p).hpc = s.hpc := rfl
@[simp] theorem State.putEng_faults (s : State) (p : EngPorts) : (s.putEng p).faults = s.faults := rfl
@[simp] theorem State.putEng_draws (s : State) (p : EngPorts) : (s.putEng p).draws = s.draws := rfl

@[simp] theorem State.putP2_hasSignedMulDiv (s : State) (p : P2Ports) : (s.putP2 p).hasSignedMulDiv = s.hasSignedMulDiv := rfl
@[simp] theorem State.putP2_fa (s : State) (p : P2Ports) : (s.putP2 p).fa = s.fa := rfl
@[simp] theorem State.putP2_rca (s : State) (p : P2Ports) : (s.putP2 p).rca = s.rca := rfl
@[simp] theorem State.putP2_eng (s : State) (p : P2Ports) : (s.putP2 p).eng = s.eng := rfl
@[simp] theorem State.putP2_p2 (s : State) (p : P2Ports) : (s.putP2 p).p2 = bankPut s.sel p s.p2 := rfl
@[simp] theorem State.putP2_sel (s : State) (p : P2Ports) : (s.putP2 p).sel = s.sel := rfl
@[simp] theorem State.putP2_hvars (s : State) (p : P2Ports) : (s.putP2 p).hvars = s.hvars := rfl
@[simp] theorem State.putP2_prog (s : State) (p : P2Ports) : (s.putP2 p).prog = s.prog := rfl
@[simp] theorem State.putP2_hpc (s : State) (p : P2Ports) : (s.putP2 p).hpc = s.hpc := rfl
@[simp] theorem State.putP2_faults (s : State) (p : P2Ports) : (s.putP2 p).faults = s.faults := rfl
@[simp] theorem State.putP2_draws (s : State) (p : P2Ports) : (s.putP2 p).draws = s.draws := rfl

@[simp] theorem State.dropFa_hasSignedMulDiv (s : State) : (s.dropFa).hasSignedMulDiv = s.hasSignedMulDiv := rfl
@[simp] theorem State.dropFa_fa (s : State) : (s.dropFa).fa = bankDrop s.sel s.fa := rfl
@[simp] theorem State.dropFa_rca (s : State) : (s.dropFa).rca = s.rca := rfl
@[simp] theorem State.dropFa_eng (s : State) : (s.dropFa).eng = s.eng := rfl
@[simp] theorem State.dropFa_p2 (s : State) : (s.dropFa).p2 = s.p2 := rfl
@[simp] theorem State.dropFa_sel (s : State) : (s.dropFa).sel = s.sel := rfl
@[simp] theorem State.dropFa_hvars (s : State) : (s.dropFa).hvars = s.hvars := rfl
@[simp] theorem State.dropFa_prog (s : State) : (s.dropFa).prog = s.prog := rfl
@[simp] theorem State.dropFa_hpc (s : State) : (s.dropFa).hpc = s.hpc := rfl
@[simp] theorem State.dropFa_faults (s : State) : (s.dropFa).faults = s.faults := rfl
@[simp] theorem State.dropFa_draws (s : State) : (s.dropFa).draws = s.draws := rfl

@[simp] theorem State.dropRca_hasSignedMulDiv (s : State) : (s.dropRca).hasSignedMulDiv = s.hasSignedMulDiv := rfl
@[simp] theorem State.dropRca_fa (s : State) : (s.dropRca).fa = s.fa := rfl
@[simp] theorem State.dropRca_rca (s : State) : (s.dropRca).rca = bankDrop s.sel s.rca := rfl
@[simp] theorem State.dropRca_eng (s : State) : (s.dropRca).eng = s.eng := rfl
@[simp] theorem State.dropRca_p2 (s : State) : (s.dropRca).p2 = s.p2 := rfl
@[simp] theorem State.dropRca_sel (s : State) : (s.dropRca).sel = s.sel := rfl
@[simp] theorem State.dropRca_hvars (s : State) : (s.dropRca).hvars = s.hvars := rfl
@[simp] theorem State.dropRca_prog (s : State) : (s.dropRca).prog = s.prog := rfl
@[simp] theorem State.dropRca_hpc (s : State) : (s.dropRca).hpc = s.hpc := rfl
@[simp] theorem State.dropRca_faults (s : State) : (s.dropRca).faults = s.faults := rfl
@[simp] theorem State.dropRca_draws (s : State) : (s.dropRca).draws = s.draws := rfl

@[simp] theorem State.dropEng_hasSignedMulDiv (s : State) : (s.dropEng).hasSignedMulDiv = s.hasSignedMulDiv := rfl
@[simp] theorem State.dropEng_fa (s : State) : (s.dropEng).fa = s.fa := rfl
@[simp] theorem State.dropEng_rca (s : State) : (s.dropEng).rca = s.rca := rfl
@[simp] theorem State.dropEng_eng (s : State) : (s.dropEng).eng = bankDrop s.sel s.eng := rfl
@[simp] theorem State.dropEng_p2 (s : State) : (s.dropEng).p2 = s.p2 := rfl
@[simp] theorem State.dropEng_sel (s : State) : (s.dropEng).sel = s.sel := rfl
@[simp] theorem State.dropEng_hvars (s : State) : (s.dropEng).hvars = s.hvars := rfl
@[simp] theorem State.dropEng_prog (s : State) : (s.dropEng).prog = s.prog := rfl
@[simp] theorem State.dropEng_hpc (s : State) : (s.dropEng).hpc = s.hpc := rfl
@[simp] theorem State.dropEng_faults (s : State) : (s.dropEng).faults = s.faults := rfl
@[simp] theorem State.dropEng_draws (s : State) : (s.dropEng).draws = s.draws := rfl

@[simp] theorem State.dropP2_hasSignedMulDiv (s : State) : (s.dropP2).hasSignedMulDiv = s.hasSignedMulDiv := rfl
@[simp] theorem State.dropP2_fa (s : State) : (s.dropP2).fa = s.fa := rfl
@[simp] theorem State.dropP2_rca (s : State) : (s.dropP2).rca = s.rca := rfl
@[simp] theorem State.dropP2_eng (s : State) : (s.dropP2).eng = s.eng := rfl
@[simp] theorem State.dropP2_p2 (s : State) : (s.dropP2).p2 = bankDrop s.sel s.p2 := rfl
@[simp] theorem State.dropP2_sel (s : State) : (s.dropP2).sel = s.sel := rfl
@[simp] theorem State.dropP2_hvars (s : State) : (s.dropP2).hvars = s.hvars := rfl
@[simp] theorem State.dropP2_prog (s : State) : (s.dropP2).prog = s.prog := rfl
@[simp] theorem State.dropP2_hpc (s : State) : (s.dropP2).hpc = s.hpc := rfl
@[simp] theorem State.dropP2_faults (s : State) : (s.dropP2).faults = s.faults := rfl
@[simp] theorem State.dropP2_draws (s : State) : (s.dropP2).draws = s.draws := rfl

@[simp] theorem State.record_hasSignedMulDiv (s : State) (f : Fault) : (s.record f).hasSignedMulDiv = s.hasSignedMulDiv := rfl
@[simp] theorem State.record_fa (s : State) (f : Fault) : (s.record f).fa = s.fa := rfl
@[simp] theorem State.record_rca (s : State) (f : Fault) : (s.record f).rca = s.rca := rfl
@[simp] theorem State.record_eng (s : State) (f : Fault) : (s.record f).eng = s.eng := rfl
@[simp] theorem State.record_p2 (s : State) (f : Fault) : (s.record f).p2 = s.p2 := rfl
@[simp] theorem State.record_sel (s : State) (f : Fault) : (s.record f).sel = s.sel := rfl
@[simp] theorem State.record_hvars (s : State) (f : Fault) : (s.record f).hvars = s.hvars := rfl
@[simp] theorem State.record_prog (s : State) (f : Fault) : (s.record f).prog = s.prog := rfl
@[simp] theorem State.record_hpc (s : State) (f : Fault) : (s.record f).hpc = s.hpc := rfl
@[simp] theorem State.record_faults (s : State) (f : Fault) : (s.record f).faults = s.faults ++ [f] := rfl
@[simp] theorem State.record_draws (s : State) (f : Fault) : (s.record f).draws = s.draws := rfl

@[simp] theorem State.setVar_hasSignedMulDiv (s : State) (h : HVar) (v : Half) : (s.setVar h v).hasSignedMulDiv = s.hasSignedMulDiv := rfl
@[simp] theorem State.setVar_fa (s : State) (h : HVar) (v : Half) : (s.setVar h v).fa = s.fa := rfl
@[simp] theorem State.setVar_rca (s : State) (h : HVar) (v : Half) : (s.setVar h v).rca = s.rca := rfl
@[simp] theorem State.setVar_eng (s : State) (h : HVar) (v : Half) : (s.setVar h v).eng = s.eng := rfl
@[simp] theorem State.setVar_p2 (s : State) (h : HVar) (v : Half) : (s.setVar h v).p2 = s.p2 := rfl
@[simp] theorem State.setVar_sel (s : State) (h : HVar) (v : Half) : (s.setVar h v).sel = s.sel := rfl
@[simp] theorem State.setVar_hvars (s : State) (h : HVar) (v : Half) : (s.setVar h v).hvars = s.hvars.set h v := rfl
@[simp] theorem State.setVar_prog (s : State) (h : HVar) (v : Half) : (s.setVar h v).prog = s.prog := rfl
@[simp] theorem State.setVar_hpc (s : State) (h : HVar) (v : Half) : (s.setVar h v).hpc = s.hpc := rfl
@[simp] theorem State.setVar_faults (s : State) (h : HVar) (v : Half) : (s.setVar h v).faults = s.faults := rfl
@[simp] theorem State.setVar_draws (s : State) (h : HVar) (v : Half) : (s.setVar h v).draws = s.draws := rfl

@[simp] theorem State.setFree_hasSignedMulDiv (s : State) (h : HVar) (v : Half) : (s.setFree h v).hasSignedMulDiv = s.hasSignedMulDiv := rfl
@[simp] theorem State.setFree_fa (s : State) (h : HVar) (v : Half) : (s.setFree h v).fa = s.fa := rfl
@[simp] theorem State.setFree_rca (s : State) (h : HVar) (v : Half) : (s.setFree h v).rca = s.rca := rfl
@[simp] theorem State.setFree_eng (s : State) (h : HVar) (v : Half) : (s.setFree h v).eng = s.eng := rfl
@[simp] theorem State.setFree_p2 (s : State) (h : HVar) (v : Half) : (s.setFree h v).p2 = s.p2 := rfl
@[simp] theorem State.setFree_sel (s : State) (h : HVar) (v : Half) : (s.setFree h v).sel = s.sel := rfl
@[simp] theorem State.setFree_hvars (s : State) (h : HVar) (v : Half) : (s.setFree h v).hvars = s.hvars.set h v := rfl
@[simp] theorem State.setFree_prog (s : State) (h : HVar) (v : Half) : (s.setFree h v).prog = s.prog := rfl
@[simp] theorem State.setFree_hpc (s : State) (h : HVar) (v : Half) : (s.setFree h v).hpc = s.hpc := rfl
@[simp] theorem State.setFree_faults (s : State) (h : HVar) (v : Half) : (s.setFree h v).faults = s.faults := rfl
@[simp] theorem State.setFree_draws (s : State) (h : HVar) (v : Half) : (s.setFree h v).draws = s.draws + 1 := rfl

@[simp] theorem State.goTo_hasSignedMulDiv (s : State) (n : Nat) : (s.goTo n).hasSignedMulDiv = s.hasSignedMulDiv := rfl
@[simp] theorem State.goTo_fa (s : State) (n : Nat) : (s.goTo n).fa = s.fa := rfl
@[simp] theorem State.goTo_rca (s : State) (n : Nat) : (s.goTo n).rca = s.rca := rfl
@[simp] theorem State.goTo_eng (s : State) (n : Nat) : (s.goTo n).eng = s.eng := rfl
@[simp] theorem State.goTo_p2 (s : State) (n : Nat) : (s.goTo n).p2 = s.p2 := rfl
@[simp] theorem State.goTo_sel (s : State) (n : Nat) : (s.goTo n).sel = s.sel := rfl
@[simp] theorem State.goTo_hvars (s : State) (n : Nat) : (s.goTo n).hvars = s.hvars := rfl
@[simp] theorem State.goTo_prog (s : State) (n : Nat) : (s.goTo n).prog = s.prog := rfl
@[simp] theorem State.goTo_hpc (s : State) (n : Nat) : (s.goTo n).hpc = n := rfl
@[simp] theorem State.goTo_faults (s : State) (n : Nat) : (s.goTo n).faults = s.faults := rfl
@[simp] theorem State.goTo_draws (s : State) (n : Nat) : (s.goTo n).draws = s.draws := rfl

@[simp] theorem State.advance_hasSignedMulDiv (s : State) : (s.advance).hasSignedMulDiv = s.hasSignedMulDiv := rfl
@[simp] theorem State.advance_fa (s : State) : (s.advance).fa = s.fa := rfl
@[simp] theorem State.advance_rca (s : State) : (s.advance).rca = s.rca := rfl
@[simp] theorem State.advance_eng (s : State) : (s.advance).eng = s.eng := rfl
@[simp] theorem State.advance_p2 (s : State) : (s.advance).p2 = s.p2 := rfl
@[simp] theorem State.advance_sel (s : State) : (s.advance).sel = s.sel := rfl
@[simp] theorem State.advance_hvars (s : State) : (s.advance).hvars = s.hvars := rfl
@[simp] theorem State.advance_prog (s : State) : (s.advance).prog = s.prog := rfl
@[simp] theorem State.advance_hpc (s : State) : (s.advance).hpc = s.hpc + 1 := rfl
@[simp] theorem State.advance_faults (s : State) : (s.advance).faults = s.faults := rfl
@[simp] theorem State.advance_draws (s : State) : (s.advance).draws = s.draws := rfl

end Sys2Proof.Machine
end

