-- ==== Sys2Proof/Laws/Bank.lean ====
section
/-! SUPPORT. What the banks of instances do: reading after a transaction or a drop, the canonical form, and transactions on different instances. -/

namespace Sys2Proof.Machine

variable {α : Type}

@[simp] theorem bankGet_nil (k : Nat) : bankGet k ([] : Bank α) = none := rfl

/-- The addressed instance shows the ports just put. -/
@[simp] theorem bankGet_bankPut_same (k : Nat) (v : α) (b : Bank α) : bankGet k (bankPut k v b) = some v := by
  induction b with
  | nil => simp [bankPut, bankGet]
  | cons e rest ih =>
    obtain ⟨j, u⟩ := e
    simp only [bankPut]
    split
    · simp [bankGet]
    · split
      · simp [bankGet]
      · next h => simp [bankGet, Ne.symm h, ih]

/-- Every other instance keeps its ports. -/
theorem bankGet_bankPut_other {j k : Nat} (h : j ≠ k) (v : α) (b : Bank α) :
    bankGet j (bankPut k v b) = bankGet j b := by
  induction b with
  | nil => simp [bankPut, bankGet, h.symm]
  | cons e rest ih =>
    obtain ⟨i, u⟩ := e
    simp only [bankPut]
    split
    · simp [bankGet, h.symm]
    · split
      · next hk => subst hk; simp [bankGet, h.symm]
      · simp [bankGet, ih]

/-- An entry after a put is the one just put or an old one. -/
theorem mem_bankPut {k : Nat} {v : α} {b : Bank α} {e : Nat × α} (h : e ∈ bankPut k v b) : e = (k, v) ∨ e ∈ b := by
  induction b with
  | nil => simpa [bankPut] using h
  | cons x rest ih =>
    obtain ⟨j, u⟩ := x
    simp only [bankPut] at h
    split at h
    · simpa using h
    · split at h
      · rcases List.mem_cons.1 h with h | h
        · exact .inl h
        · exact .inr (List.mem_cons_of_mem _ h)
      · rcases List.mem_cons.1 h with h | h
        · exact .inr (h ▸ List.mem_cons_self ..)
        · exact (ih h).imp_right (List.mem_cons_of_mem _)

/-- A put keeps the canonical form. -/
theorem bankPut_wf {k : Nat} {v : α} {b : Bank α} (h : BankWf b) : BankWf (bankPut k v b) := by
  induction b with
  | nil => exact List.pairwise_singleton _ _
  | cons x rest ih =>
    obtain ⟨j, u⟩ := x
    obtain ⟨hx, hr⟩ := List.pairwise_cons.1 h
    simp only [bankPut]
    split
    · next hk =>
      refine List.pairwise_cons.2 ⟨fun e he => ?_, h⟩
      rcases List.mem_cons.1 he with rfl | he
      · exact hk
      · exact Nat.lt_trans hk (hx e he)
    · split
      · next hk => exact List.pairwise_cons.2 ⟨fun e he => by simpa [hk] using hx e he, hr⟩
      · next hk hj =>
        refine List.pairwise_cons.2 ⟨fun e he => ?_, ih hr⟩
        rcases mem_bankPut he with rfl | he
        · show j < k
          omega
        · exact hx e he

/-- Putting twice on one instance is putting the last. -/
@[simp] theorem bankPut_bankPut_same (k : Nat) (v w : α) (b : Bank α) :
    bankPut k w (bankPut k v b) = bankPut k w b := by
  induction b with
  | nil => simp [bankPut]
  | cons x rest ih =>
    obtain ⟨j, u⟩ := x
    by_cases hk : k < j
    · simp [bankPut, hk]
    · by_cases hj : k = j
      · simp [bankPut, hj]
      · simp [bankPut, hk, hj, ih]

/-- Puts on different instances commute on any bank. -/
theorem bankPut_comm {j k : Nat} (h : j ≠ k) (v w : α) (b : Bank α) :
    bankPut j v (bankPut k w b) = bankPut k w (bankPut j v b) := by
  induction b with
  | nil =>
    rcases Nat.lt_or_gt_of_ne h with h' | h'
    · simp [bankPut, h', h.symm, Nat.not_lt.2 (Nat.le_of_lt h')]
    · simp [bankPut, h', h, Nat.not_lt.2 (Nat.le_of_lt h')]
  | cons x rest ih =>
    obtain ⟨i, u⟩ := x
    rcases Nat.lt_trichotomy j i with hj | hj | hj <;> rcases Nat.lt_trichotomy k i with hk | hk | hk <;>
      simp [bankPut, *] <;> grind [bankPut]

/-- A dropped instance shows nothing. -/
@[simp] theorem bankGet_bankDrop_same (k : Nat) (b : Bank α) : bankGet k (bankDrop k b) = none := by
  induction b with
  | nil => rfl
  | cons e rest ih =>
    obtain ⟨j, u⟩ := e
    by_cases h : j = k
    · simpa [bankDrop, h] using ih
    · simpa [bankDrop, h, bankGet] using ih

/-- Every other instance keeps its ports. -/
theorem bankGet_bankDrop_other {j k : Nat} (h : j ≠ k) (b : Bank α) : bankGet j (bankDrop k b) = bankGet j b := by
  induction b with
  | nil => rfl
  | cons e rest ih =>
    obtain ⟨i, u⟩ := e
    simp only [bankDrop] at ih
    by_cases hi : i = k
    · simp [bankDrop, hi, bankGet, h.symm, ih]
    · simp [bankDrop, hi, bankGet, ih]

/-- A drop leaves only old entries. -/
theorem mem_bankDrop {k : Nat} {b : Bank α} {e : Nat × α} (h : e ∈ bankDrop k b) : e ∈ b :=
  List.mem_of_mem_filter h

/-- A drop keeps the canonical form. -/
theorem bankDrop_wf {k : Nat} {b : Bank α} (h : BankWf b) : BankWf (bankDrop k b) :=
  List.Pairwise.filter _ h

end Sys2Proof.Machine
end

