-- ==== Sys2Proof/Laws/Operands.lean ====
section
/-! SUPPORT. One lemma per operand operation and adder operation, saying in numbers all it can do. -/

namespace Sys2Proof.Machine

@[simp] theorem srcValue_lit {n : Nat} (v : BitVec n) (hv : Vector Half 16) : srcValue (.lit v) hv = v := rfl

@[simp] theorem srcValue_var {n : Nat} (h : HVar) (hv : Vector Half 16) :
    srcValue (.var h : Src n) hv = (hv[h]).setWidth n := rfl

@[simp] theorem zext32_toNat (a : Half) : (zext32 a).toNat = a.toNat := by
  have := a.isLt
  simp only [zext32, BitVec.toNat_setWidth]
  omega

/-- The sum and the carry of one full adder together count its inputs. -/
theorem fullAdd_count (a b c : Bool) :
    2 * (fullAdd a b c).2.toNat + (fullAdd a b c).1.toNat = a.toNat + b.toNat + c.toNat := by
  revert a b c
  decide

/-- Setting bit `i` of an accumulator that has no bit from `i` up adds 2^i or nothing. -/
theorem withBit_toNat (acc : Wide) (i : Nat) (hi : i < 32) (h : acc.toNat < 2 ^ i) (s : Bool) :
    (withBit acc i s).toNat = acc.toNat + 2 ^ i * s.toNat := by
  have above : ∀ j, i ≤ j → acc.getLsbD j = false := fun j hj => by
    rw [← BitVec.testBit_toNat]
    exact Nat.testBit_lt_two_pow (lt_of_lt_of_le h (Nat.pow_le_pow_right (by norm_num) hj))
  cases s
  · simp only [withBit, Bool.false_eq_true, if_false, Bool.toNat_false, mul_zero, add_zero]
    congr 1
    apply BitVec.eq_of_getLsbD_eq
    intro j hj
    have := above j
    simp [BitVec.getLsbD_twoPow]
    grind
  · simp only [withBit, if_true, Bool.toNat_true, mul_one]
    rw [BitVec.toNat_or, BitVec.toNat_twoPow, Nat.mod_eq_of_lt (Nat.pow_lt_pow_right (by norm_num) hi)]
    have join := Nat.two_pow_add_eq_or_of_lt h 1
    rw [mul_one] at join
    rw [Nat.lor_comm, ← join, add_comm]

/-- The sixteen powers of two pass the test of R181, and LOG2 finds their exponents. -/
theorem twoPow_cases :
    ∀ k : Fin 16, isPow2 (BitVec.twoPow 16 k) = true ∧
      ((List.range 16).find? fun j => BitVec.twoPow 16 k.val == BitVec.twoPow 16 j) = some k.val := by
  decide

theorem eq_twoPow {k : Nat} (hk : k < 16) {p : Half} (hp : p.toNat = 2 ^ k) : p = BitVec.twoPow 16 k := by
  apply BitVec.eq_of_toNat_eq
  rw [hp, BitVec.toNat_twoPow, Nat.mod_eq_of_lt (Nat.pow_lt_pow_right (by norm_num) hk)]

/-- LOG2 on its domain (R180). -/
theorem log2_of_pow {k : Nat} (hk : k < 16) {p : Half} (hp : p.toNat = 2 ^ k) : log2 p = k := by
  have h := eq_twoPow hk hp
  subst h
  rw [log2, (twoPow_cases ⟨k, hk⟩).2]
  rfl

/-- A number whose bits meet none of its predecessor's is a power of two. -/
theorem eq_pow_of_and_pred {n : Nat} (h0 : n ≠ 0) (h : n &&& (n - 1) = 0) : n = 2 ^ n.log2 := by
  by_contra hne
  have hle := Nat.log2_self_le h0
  have hlt : 2 ^ n.log2 < n := lt_of_le_of_ne hle (Ne.symm hne)
  have hup := Nat.lt_log2_self (n := n)
  rw [pow_succ] at hup
  have top : ∀ m, 2 ^ n.log2 ≤ m → m < 2 ^ n.log2 * 2 → m.testBit n.log2 = true := by
    intro m h1 h2
    rw [Nat.testBit_eq_decide_div_mod_eq, Nat.div_eq_of_lt_le (k := 1) (by omega) (by omega)]
    rfl
  have both := Nat.testBit_and n (n - 1) n.log2
  rw [h, top n hle hup, top (n - 1) (by omega) (by omega)] at both
  simp at both

/-- The test of R181 is that the value is 2^k for some k in 0 to 15 (R13). -/
theorem isPow2_iff (p : Half) : isPow2 p = true ↔ PowerOfTwo p := by
  constructor
  · intro h
    simp only [isPow2, Bool.and_eq_true, bne_iff_ne, ne_eq, beq_iff_eq] at h
    obtain ⟨h0, h1⟩ := h
    have h0' : p.toNat ≠ 0 := fun h => h0 (BitVec.eq_of_toNat_eq h)
    have hand := congrArg BitVec.toNat h1
    have pred : (p - 0x0001#16).toNat = p.toNat - 1 := by
      have := p.isLt
      rw [BitVec.toNat_sub]
      have one : (0x0001#16).toNat = 1 := rfl
      omega
    rw [BitVec.toNat_and, pred] at hand
    exact ⟨p.toNat.log2, (Nat.log2_lt h0').2 p.isLt, eq_pow_of_and_pred h0' hand⟩
  · rintro ⟨k, hk, hp⟩
    rw [eq_twoPow hk hp]
    exact (twoPow_cases ⟨k, hk⟩).1

/-- The legal SDIV divisors other than 0 are the powers of two below 0x8000 (R208). -/
theorem isPosPow2_iff (b : Half) : isPosPow2 b = true ↔ PositivePowerOfTwo b := by
  have sign : b.getLsbD 15 = decide (2 ^ 15 ≤ b.toNat) := by
    rw [← BitVec.testBit_toNat, Nat.testBit_eq_decide_div_mod_eq, Bool.eq_iff_iff]
    have := b.isLt
    simp only [decide_eq_true_eq]
    omega
  simp only [isPosPow2, Bool.and_eq_true, Bool.not_eq_true', isPow2_iff, sign, decide_eq_false_iff_not]
  constructor
  · rintro ⟨h, k, hk, hp⟩
    refine ⟨k, ?_, hp⟩
    by_contra hn
    have : k = 15 := by omega
    exact h (by rw [hp, this])
  · rintro ⟨k, hk, hp⟩
    refine ⟨?_, k, by omega, hp⟩
    rw [hp]
    exact Nat.not_le.2 (Nat.pow_lt_pow_right (by norm_num) hk)

/-- The shift by LOG2 that SDIV computes is the quotient rounded toward zero (R208). -/
theorem sdivQuotient_eq (a : Half) {b : Half} (h : PositivePowerOfTwo b) : sdivQuotient a b = a.toInt.tdiv b.toInt := by
  obtain ⟨k, hk, hb⟩ := h
  have hlt : b.toNat < 2 ^ 15 := hb ▸ Nat.pow_lt_pow_right (by norm_num) hk
  have hbi : b.toInt = ((2 ^ k : Nat) : Int) := by
    rw [BitVec.toInt_eq_toNat_of_lt (by omega), hb]
  rw [sdivQuotient, log2_of_pow (by omega) hb, hbi, Nat.shiftRight_eq_div_pow]
  obtain ⟨n, ha | ha⟩ := a.toInt.eq_nat_or_neg <;> simp only [ha, Int.natAbs_neg, Int.natAbs_natCast]
  · rw [if_neg (by omega)]
    exact (Int.ofNat_tdiv n (2 ^ k)).symm
  · rw [Int.neg_tdiv, ← Int.ofNat_tdiv]
    split
    · rfl
    · have hn : n = 0 := by omega
      simp [hn]

/-- The placed statement is the next one. -/
theorem placeAt_get (st : Stmt) (n : Nat) (l : List Stmt) : (placeAt st n l)[n]? = some st := by
  induction n generalizing l with
  | zero => cases l <;> rfl
  | succ n ih => cases l <;> simpa [placeAt] using ih _

end Sys2Proof.Machine
end

