-- ==== Sys2Proof/Laws/Ops.lean ====
section
/-! SUPPORT. What each shared operation can do, said once: reads, captures, meanings, transactions and statements. -/

namespace Sys2Proof.Machine

/-- A host read that is stored changes host variables, the record of faults, which it only extends, and the count of free values. -/
theorem store_cases (s : State) (d : HVar) (v : Half) (r : Except Fault Half) :
    ∃ hv l n, s.store d v r = { s with hvars := hv, faults := s.faults ++ l, draws := n } := by
  cases r with
  | ok w => exact ⟨s.hvars.set d w, [], s.draws, by simp [State.store, State.setVar]⟩
  | error f => exact ⟨_, [f], _, rfl⟩

/-- A host read that is looked at can only extend the record of faults. -/
theorem look_cases (s : State) (r : Except Fault Wide) : ∃ l, s.look r = { s with faults := s.faults ++ l } := by
  cases r with
  | ok w => exact ⟨[], by simp [State.look]⟩
  | error f => exact ⟨[f], rfl⟩

/-- A capture list changes host variables, the record of faults, which it only extends, and the count of free values. -/
theorem captureFa_cases (k : Nat) (caps : List (FaField × HVar)) (s : State) :
    ∃ hv l n, captureFa k caps s = { s with hvars := hv, faults := s.faults ++ l, draws := n } := by
  induction caps generalizing s with
  | nil => exact ⟨s.hvars, [], s.draws, by simp [captureFa]⟩
  | cons c rest ih =>
    obtain ⟨hv, l, n, hs⟩ := store_cases s c.2 s.freeBit (readFa s k c.1)
    obtain ⟨hv', l', n', ht⟩ := ih (s.store c.2 s.freeBit (readFa s k c.1))
    exact ⟨hv', l ++ l', n', by rw [captureFa, ht, hs]; simp⟩

/-- A capture list changes host variables, the record of faults, which it only extends, and the count of free values. -/
theorem captureEng_cases (k : Nat) (caps : List (EngField × HVar)) (s : State) :
    ∃ hv l n, captureEng k caps s = { s with hvars := hv, faults := s.faults ++ l, draws := n } := by
  induction caps generalizing s with
  | nil => exact ⟨s.hvars, [], s.draws, by simp [captureEng]⟩
  | cons c rest ih =>
    obtain ⟨hv, l, n, hs⟩ := store_cases s c.2 (s.freeEng c.1) (readEng s k c.1)
    obtain ⟨hv', l', n', ht⟩ := ih (s.store c.2 (s.freeEng c.1) (readEng s k c.1))
    exact ⟨hv', l ++ l', n', by rw [captureEng, ht, hs]; simp⟩

/-- The captures of any transaction change host variables, the record of faults, which they only extend, and the count of free
values. -/
theorem captures_cases (k : Nat) (d : Drive) (s : State) :
    ∃ hv l n, captures k d s = { s with hvars := hv, faults := s.faults ++ l, draws := n } := by
  cases d with
  | fa a b c caps => exact captureFa_cases k caps s
  | rca32 a b c => exact ⟨s.hvars, [], s.draws, by simp [captures]⟩
  | eng op a b caps => exact captureEng_cases k caps s
  | p2mul x p => exact ⟨s.hvars, [], s.draws, by simp [captures]⟩

/-- The captures of a faulted transaction change host variables and the count of free values. -/
theorem looseEng_cases (caps : List (EngField × HVar)) (s : State) :
    ∃ hv n, looseEng caps s = { s with hvars := hv, draws := n } := by
  induction caps generalizing s with
  | nil => exact ⟨s.hvars, s.draws, rfl⟩
  | cons c rest ih => exact (ih (s.setFree c.2 (s.freeEng c.1))).imp fun hv ⟨n, h⟩ => ⟨n, by rw [looseEng, h]; rfl⟩

/-- A faulted transaction drops the addressed instance of one block; else it changes host variables and the count of free values. -/
theorem noRecord_cases (d : Drive) (s : State) :
    ∃ u hv n, (u = s.dropFa ∨ u = s.dropRca ∨ u = s.dropEng ∨ u = s.dropP2) ∧
      noRecord d s = { u with hvars := hv, draws := n } := by
  cases d with
  | fa a b c caps => exact ⟨_, s.hvars, s.draws, .inl rfl, rfl⟩
  | rca32 a b c => exact ⟨_, s.hvars, s.draws, .inr (.inl rfl), rfl⟩
  | eng op a b caps =>
    obtain ⟨hv, n, h⟩ := looseEng_cases caps s.dropEng
    exact ⟨_, hv, n, .inr (.inr (.inl rfl)), h⟩
  | p2mul x p => exact ⟨_, s.hvars, s.draws, .inr (.inr (.inr rfl)), rfl⟩

/-- A meaning that answers a next state has put one instance's ports, and changed nothing else. -/
theorem exec_cases {i : Instr} {s t : State} (h : exec i s = .next t) :
    (∃ p, t = s.putFa p) ∨ (∃ p, t = s.putRca p) ∨ (∃ p, t = s.putEng p) ∨ ∃ p, t = s.putP2 p := by
  cases i <;>
    simp only [exec, execFa, execRca32, execAdd, execSub, execUmul, execP2mul, execUdiv, execSmul, execSdiv, raise] at h
  case fa => exact .inl ⟨_, by injection h with h; exact h.symm⟩
  case rca32 => exact .inr (.inl ⟨_, by injection h with h; exact h.symm⟩)
  case p2mul =>
    split at h
    · exact .inr (.inr (.inr ⟨_, by injection h with h; exact h.symm⟩))
    · cases h
  all_goals
    repeat' split at h
    all_goals first
      | exact .inr (.inr (.inl ⟨_, by injection h with h; exact h.symm⟩))
      | cases h

/-- No transaction is refused. -/
theorem exec_not_refused (i : Instr) (s : State) (r : Refusal) : exec i s ≠ .refused r := by
  cases i <;>
    simp only [exec, execFa, execRca32, execAdd, execSub, execUmul, execP2mul, execUdiv, execSmul, execSdiv, raise] <;>
    repeat' split
  all_goals simp

/-- A transaction that completes decoded, and its instruction answered the next state. -/
theorem attempt_next {k : Nat} {d : Drive} {s u : State} (h : attempt k d s = .next u) :
    ∃ i, decode (driveWord s.hvars d) = .ok i ∧ exec i (s.select k) = .next u := by
  simp only [attempt] at h
  split at h
  · next i hi => exact ⟨i, hi, h⟩
  · simp [raise] at h

/-- No attempt is refused. -/
theorem attempt_not_refused (k : Nat) (d : Drive) (s : State) (r : Refusal) : attempt k d s ≠ .refused r := by
  simp only [attempt]
  split
  · exact exec_not_refused _ _ _
  · simp [raise]

/-- A transaction statement answers a next state: it completed and was captured, or its fault was recorded. -/
theorem runTransaction_cases (k : Nat) (d : Drive) (s : State) :
    (∃ u, attempt k d s = .next u ∧ runTransaction k d s = .next (captures k d u).advance) ∨
    ∃ f, attempt k d s = .fault f ∧ runTransaction k d s = .next (noRecord d ((s.select k).record f)).advance := by
  cases h : attempt k d s with
  | next u => exact .inl ⟨u, rfl, by simp [runTransaction, h]⟩
  | fault f => exact .inr ⟨f, rfl, by simp [runTransaction, h]⟩
  | refused r => exact absurd h (attempt_not_refused k d s r)

/-- A host statement that is no transaction answers a next state that differs in host variables, the host's position, the record of
faults, which it only extends, and the count of free values. -/
theorem runStmt_cases (st : Stmt) (s : State) :
    (∃ k d, st = .transact k d) ∨
    ∃ hv m l n, runStmt st s = .next { s with hvars := hv, hpc := m, faults := s.faults ++ l, draws := n } := by
  cases st with
  | transact k d => exact .inl ⟨k, d, rfl⟩
  | readFa k f dst =>
    obtain ⟨hv, l, n, h⟩ := store_cases s dst s.freeBit (readFa s k f)
    exact .inr ⟨hv, _, l, n, by rw [runStmt, h]; rfl⟩
  | readRca k =>
    obtain ⟨l, h⟩ := look_cases s (readRca s k)
    exact .inr ⟨s.hvars, _, l, s.draws, by rw [runStmt, h]; rfl⟩
  | readEng k f dst =>
    obtain ⟨hv, l, n, h⟩ := store_cases s dst (s.freeEng f) (readEng s k f)
    exact .inr ⟨hv, _, l, n, by rw [runStmt, h]; rfl⟩
  | readP2 k =>
    obtain ⟨l, h⟩ := look_cases s (readP2 s k)
    exact .inr ⟨s.hvars, _, l, s.draws, by rw [runStmt, h]; rfl⟩
  | assign dst v => exact .inr ⟨_, s.hpc + 1, [], s.draws, by rw [List.append_nil]; rfl⟩
  | ifZero x n =>
    refine .inr ⟨s.hvars, if s.getVar x = 0x0000#16 then n else s.hpc + 1, [], s.draws, ?_⟩
    rw [List.append_nil, runStmt]
    split <;> rfl
  | ifNonzero x n =>
    refine .inr ⟨s.hvars, if s.getVar x = 0x0000#16 then s.hpc + 1 else n, [], s.draws, ?_⟩
    rw [List.append_nil, runStmt]
    split <;> rfl
  | goto n => exact .inr ⟨s.hvars, n, [], s.draws, by rw [List.append_nil]; rfl⟩
  | halt => exact .inr ⟨s.hvars, s.hpc, [], s.draws, by rw [List.append_nil]; rfl⟩

end Sys2Proof.Machine
end

