-- ==== Sys2Proof/Laws/PerInstr.lean ====
section
/-! SUPPORT. Statements per constructor of Instr. The family WordLength says which block's format, and so which length, a transaction's word has (spec 30 R80, R81). -/

namespace Sys2Proof.Laws.WordLength

/-- The block whose format a transaction is written in. -/
def blockOf : Instr → Format
  | .fa _ _ _ => .fa
  | .rca32 _ _ _ => .rca
  | .p2mul _ _ => .p2
  | .add _ _ | .sub _ _ | .umul _ _ | .udiv _ _ | .smul _ _ | .sdiv _ _ => .eng

/-- The word of a transaction is in its block's format and no longer than that format. -/
def Statement (i : Instr) : Prop :=
  (encode i).format = blockOf i ∧ (encode i).toNat < 2 ^ (blockOf i).bits

theorem fa (a b cIn : Bool) : Statement (.fa a b cIn) := ⟨rfl, (packFa a b cIn).isLt⟩
theorem rca32 (a b : Wide) (cIn : Bool) : Statement (.rca32 a b cIn) := ⟨rfl, (packRca a b cIn).isLt⟩
theorem add (a b : Half) : Statement (.add a b) := ⟨rfl, (packEng 0x0#4 a b).isLt⟩
theorem sub (a b : Half) : Statement (.sub a b) := ⟨rfl, (packEng 0x1#4 a b).isLt⟩
theorem umul (a b : Half) : Statement (.umul a b) := ⟨rfl, (packEng 0x2#4 a b).isLt⟩
theorem p2mul (x p : Half) : Statement (.p2mul x p) := ⟨rfl, (packP2 x p).isLt⟩
theorem udiv (a b : Half) : Statement (.udiv a b) := ⟨rfl, (packEng 0x3#4 a b).isLt⟩
theorem smul (a b : Half) : Statement (.smul a b) := ⟨rfl, (packEng 0x4#4 a b).isLt⟩
theorem sdiv (a b : Half) : Statement (.sdiv a b) := ⟨rfl, (packEng 0x5#4 a b).isLt⟩

end Sys2Proof.Laws.WordLength
end

