-- ==== Sys2Proof/Laws/Step.lean ====
section
/-! SUPPORT. What a step can do, said once. -/

namespace Sys2Proof.Machine

/-- Every step answers a next state: a transaction that decoded, ran and was captured; a transaction whose fault was recorded and
whose instance shows no output; or a change of the host's variables, its position, the record of faults and the count of free
values alone. The record is only extended. -/
theorem step_cases (s : State) :
    (∃ k d i u hv l n, fetch s = some (.transact k d) ∧ decode (driveWord s.hvars d) = .ok i ∧
      exec i (s.select k) = .next u ∧
      step s = .next { u with hvars := hv, faults := u.faults ++ l, draws := n, hpc := u.hpc + 1 }) ∨
    (∃ k d f r u hv n, fetch s = some (.transact k d) ∧ attempt k d s = .fault f ∧ r = (s.select k).record f ∧
      (u = r.dropFa ∨ u = r.dropRca ∨ u = r.dropEng ∨ u = r.dropP2) ∧
      step s = .next { u with hvars := hv, draws := n, hpc := s.hpc + 1 }) ∨
    ∃ hv m l n, step s = .next { s with hvars := hv, hpc := m, faults := s.faults ++ l, draws := n } := by
  cases hf : fetch s with
  | none => exact .inr (.inr ⟨s.hvars, s.hpc, [], s.draws, by simp [step, hf]⟩)
  | some st =>
    have hstep : step s = runStmt st s := by simp [step, hf]
    rcases runStmt_cases st s with ⟨k, d, rfl⟩ | h
    · rcases runTransaction_cases k d s with ⟨u, hu, hr⟩ | ⟨f, ha, hr⟩
      · obtain ⟨i, hd, hi⟩ := attempt_next hu
        obtain ⟨hv, l, n, hc⟩ := captures_cases k d u
        exact .inl ⟨k, d, i, u, hv, l, n, rfl, hd, hi, by rw [hstep, runStmt, hr, hc]; rfl⟩
      · obtain ⟨u, hv, n, hu, hn⟩ := noRecord_cases d ((s.select k).record f)
        refine .inr (.inl ⟨k, d, f, _, u, hv, n, rfl, ha, rfl, hu, ?_⟩)
        rw [hstep, runStmt, hr, hn]
        rcases hu with rfl | rfl | rfl | rfl <;> rfl
    · exact .inr (.inr (by rw [hstep]; exact h))

end Sys2Proof.Machine
end

