-- ==== Sys2Proof/WellFormed.lean ====
section
/-! DEFINITION. What is checked before a transaction or a host program is called well-formed (spec 30 R86, R87; 95 section 4). Operand widths need no check: the types carry them. -/

namespace Sys2Proof

/-- A transaction is well-formed in a build iff its op code is not reserved there: SMUL and SDIV need
`HAS_SIGNED_MULDIV` (R87). Operand preconditions are checked when the operation runs (R85). -/
def Instr.wellFormed (hasSignedMulDiv : Bool) : Instr → Bool
  | .fa _ _ _ => true
  | .rca32 _ _ _ => true
  | .add _ _ => true
  | .sub _ _ => true
  | .umul _ _ => true
  | .p2mul _ _ => true
  | .udiv _ _ => true
  | .smul _ _ => hasSignedMulDiv
  | .sdiv _ _ => hasSignedMulDiv

/-- What the host drives is well-formed in a build iff its ENG op code is not reserved (R86, R87). -/
def Machine.Drive.wellFormed (hasSignedMulDiv : Bool) : Machine.Drive → Bool
  | .fa _ _ _ _ => true
  | .rca32 _ _ _ => true
  | .eng op _ _ _ => if hasSignedMulDiv then op.toNat ≤ 5 else op.toNat ≤ 3
  | .p2mul _ _ => true

/-- A host statement is well-formed in a build, in a program of `n` statements, iff what it drives is, and its jump names a
statement of the program or the end just past it. -/
def Machine.Stmt.wellFormed (hasSignedMulDiv : Bool) (n : Nat) : Machine.Stmt → Bool
  | .transact _ d => d.wellFormed hasSignedMulDiv
  | .readFa _ _ _ => true
  | .readRca _ => true
  | .readEng _ _ _ => true
  | .readP2 _ => true
  | .assign _ _ => true
  | .ifZero _ target => target ≤ n
  | .ifNonzero _ target => target ≤ n
  | .goto target => target ≤ n
  | .halt => true

/-- A host program is well-formed iff each of its statements is. -/
def Machine.programWellFormed (hasSignedMulDiv : Bool) (prog : List Machine.Stmt) : Bool :=
  prog.all (Machine.Stmt.wellFormed hasSignedMulDiv prog.length)

end Sys2Proof
end

