-- ==== Sys2Proof/Tests/Slice0.lean ====
section
/-! SUPPORT. The model's own tests: ill-formed terms refused, words of spec 95 decoded, one step per transaction against spec 95's vectors, and witnesses that the hypotheses of the statements can be met. -/

namespace Sys2Proof.Tests

open Sys2Proof Sys2Proof.Machine

/-- A machine whose signed option is or is not built, with nothing performed. -/
def fresh (hasSignedMulDiv : Bool) : State := { State.reset with hasSignedMulDiv := hasSignedMulDiv }

/-- A machine whose host has one statement to run. -/
def host (st : Stmt) : State := { State.reset with prog := [st] }

/-- The state an outcome answers, if it is a next state. -/
def nextOf : Result → Option State
  | .next t => some t
  | .fault _ => none
  | .refused _ => none

/-- The faults recorded, and the position of the host, after an outcome that is a next state. -/
def recorded (r : Result) : Option (List Fault × Nat) := (nextOf r).map fun t => (t.faults, t.hpc)

/-- The host variables after an outcome that is a next state. -/
def varsOf (r : Result) : Option (Vector Half 16) := (nextOf r).map State.hvars

/-- The record ENG instance 0 shows after one step that runs the word placed at reset. -/
def engAfter (w : Nat) : Option WideResult :=
  (nextOf (step (State.reset.withFetchWord 40 w))).bind fun t => (t.engAt 0).map EngPorts.out

/-- A record of ADD or SUB. -/
def sumRecord (r : Half) (uo so : Bool) : WideResult := ⟨some r, none, some uo, some so, some false⟩

/-- A record of a multiply or a divide by a nonzero divisor. -/
def pairRecord (r x : Half) : WideResult := ⟨some r, some x, none, none, some false⟩

/-! ### Ill-formed terms are refused -/

theorem test_smul_needs_the_option : Instr.wellFormed false (.smul 1#16 1#16) = false := by decide
theorem test_sdiv_needs_the_option : Instr.wellFormed false (.sdiv 1#16 1#16) = false := by decide
theorem test_reserved_op_is_ill_formed :
    Stmt.wellFormed true 1 (.transact 0 (.eng 0x6#4 (.lit 0#16) (.lit 0#16) [])) = false := by decide
theorem test_optional_op_is_ill_formed :
    Stmt.wellFormed false 1 (.transact 0 (.eng 0x4#4 (.lit 0#16) (.lit 0#16) [])) = false := by decide
theorem test_jump_out_of_the_program :
    programWellFormed true [.goto 2] = false ∧ programWellFormed true [.ifZero 0 2] = false ∧
    programWellFormed true [.ifNonzero 0 2] = false ∧ programWellFormed true [.goto 1] = true := by decide

/-! ### Words of spec 95, written out, and what they decode to -/

theorem test_decode_fa : decodeTableWord 8 0x6 = some (.fa true true false) := by decide
theorem test_decode_rca : decodeTableWord 72 0x1FFFFFFFF00000000 = some (.rca32 0xFFFFFFFF#32 0#32 true) := by decide
theorem test_decode_add : decodeTableWord 40 0x0FFFF0001 = some (.add 0xFFFF#16 0x0001#16) := by decide
theorem test_decode_sub : decodeTableWord 40 0x100050007 = some (.sub 0x0005#16 0x0007#16) := by decide
theorem test_decode_umul : decodeTableWord 40 0x212340010 = some (.umul 0x1234#16 0x0010#16) := by decide
theorem test_decode_p2mul : decodeTableWord 32 0x12340010 = some (.p2mul 0x1234#16 0x0010#16) := by decide
theorem test_decode_udiv : decodeTableWord 40 0x3000A0008 = some (.udiv 0x000A#16 0x0008#16) := by decide
theorem test_decode_smul : decodeTableWord 40 0x48000FFFF = some (.smul 0x8000#16 0xFFFF#16) := by decide
theorem test_decode_sdiv : decodeTableWord 40 0x5FFF90004 = some (.sdiv 0xFFF9#16 0x0004#16) := by decide
theorem test_decode_reserved : decode (.eng 0xF00000000#36) = .error (.reservedOp 0xF#4) := by decide
theorem test_no_such_word : decodeTableWord 16 0 = none ∧ decodeTableWord 8 0x8 = none := by decide

/-! ### One step per transaction, against the vectors of spec 95 -/

theorem test_fa_8 :
    ((nextOf (step (State.reset.withFetchWord 8 0x7))).bind fun t => t.faAt 0) =
      some ⟨true, true, true, true, true⟩ := by decide
theorem test_rca_5 :
    ((nextOf (step (State.reset.withFetchWord 72 0x1FFFFFFFF00000000))).bind fun t => (t.rcaAt 0).map RcaPorts.sum) =
      some 0x00000000#32 := by decide
theorem test_rca_12 :
    ((nextOf (step (State.reset.withFetchWord 72 0x0123456789ABCDEF0))).bind fun t => (t.rcaAt 0).map RcaPorts.sum) =
      some 0xACF13568#32 := by decide
theorem test_add_3 : engAfter 0x0FFFF0001 = some (sumRecord 0x0000#16 true false) := by decide
theorem test_add_8 : engAfter 0x08000FFFF = some (sumRecord 0x7FFF#16 true true) := by decide
theorem test_sub_3 : engAfter 0x180000000 = some (sumRecord 0x8000#16 false false) := by decide
theorem test_sub_10 : engAfter 0x100008000 = some (sumRecord 0x8000#16 true false) := by decide
theorem test_umul_4 : engAfter 0x2FFFFFFFF = some (pairRecord 0x0001#16 0xFFFE#16) := by decide +kernel
theorem test_umul_9 : engAfter 0x212345678 = some (pairRecord 0x0060#16 0x0626#16) := by decide +kernel
theorem test_p2mul_3 :
    ((nextOf (step (State.reset.withFetchWord 32 0xFFFF8000))).bind fun t => (t.p2At 0).map P2Ports.y) =
      some 0x7FFF8000#32 := by decide
theorem test_p2mul_7 :
    recorded (step (State.reset.withFetchWord 32 0x12340000)) =
      some ([.preconditionViolated .p2mul 0x0000#16], 1) := by decide
theorem test_udiv_6 : engAfter 0x3FFFF8000 = some (pairRecord 0x0001#16 0x7FFF#16) := by decide
theorem test_udiv_3 : engAfter 0x3000A0000 = some ⟨none, none, none, none, some true⟩ := by decide
theorem test_smul_4 : engAfter 0x480007FFF = some (pairRecord 0x8000#16 0xC000#16) := by decide
theorem test_smul_2 : engAfter 0x4FFFF0001 = some (pairRecord 0xFFFF#16 0xFFFF#16) := by decide
theorem test_sdiv_1 : engAfter 0x5FFF90004 = some (pairRecord 0xFFFF#16 0xFFFD#16) := by decide
theorem test_sdiv_9 :
    recorded (step (State.reset.withFetchWord 40 0x5FFF98000)) =
      some ([.preconditionViolated (.eng .sdiv) 0x8000#16], 1) := by decide
/-- 95 V-RSV. The reserved words are driven by host statements, since no table word names them. -/
theorem test_reserved_5 :
    recorded (step (host (.transact 0 (.eng 0x6#4 (.lit 0x3000#16) (.lit 0#16) [])))) = some ([.reservedOp 0x6#4], 1) := by
  decide
theorem test_reserved_3 :
    recorded (step ((fresh false).withFetchWord 40 0x4FFFFFFFF)) = some ([.reservedOp 0x4#4], 1) := by decide

/-! ### The host: sources, captures, reads and recorded faults -/

/-- A host whose variables h0, h5 and h15 are set. -/
def loaded (st : Stmt) : State :=
  { host st with hvars := ((Vector.replicate 16 0#16).set 0 0xFFFF#16).set 5 0x0002#16 |>.set 15 0x8001#16 }

/-- 95 P1's first transaction, `ADD h0, h5 -> result:h4, unsigned_overflow:h6`, with other variables. -/
theorem test_two_captures :
    (varsOf (step (loaded (.transact 0 (.eng 0x0#4 (.var 0) (.var 5) [(.result, 4), (.unsignedOverflow, 6)]))))).map
      (fun v => (v[4], v[6], v[0])) = some (0x0001#16, 0x0001#16, 0xFFFF#16) := by decide
/-- A line of 95 P5, `FA 1, 0, h15 -> sum:h1, carry_out:h2`: of h15 = 0x8001 the port takes bit 0 (R42). -/
theorem test_fa_captures :
    (varsOf (step (loaded (.transact 0 (.fa (.lit 1#1) (.lit 0#1) (.var 15) [(.sum, 1), (.carryOut, 2)]))))).map
      (fun v => (v[1], v[2])) = some (0x0000#16, 0x0001#16) := by decide
/-- A host variable on a 32-bit port is zero-extended (log entry 6). -/
theorem test_rca_from_variables :
    ((nextOf (step (loaded (.transact 0 (.rca32 (.var 0) (.var 15) (.var 5)))))).bind fun t => t.rcaAt 0) =
      some ⟨0x0000FFFF#32, 0x00008001#32, false, 0x00018000#32⟩ := by decide
/-- 95 UNDEF-1: the fault is recorded, the set field is captured, and the record stays (R234). -/
theorem test_undef_1 :
    (nextOf (step (loaded (.transact 0 (.eng 0x0#4 (.lit 1#16) (.lit 2#16) [(.supplementalResult, 1), (.result, 2)]))))).map
      (fun t => (t.faults, t.hvars[2], (t.engAt 0).map fun p => p.out.result)) =
      some ([.readUndefinedField (some (.eng .add)) (.eng .supplementalResult)], 0x0003#16, some (some 0x0003#16)) := by
  decide
/-- R235, R238: a faulted transaction on instance 0, after one that completed there and one on instance 1: the fault is recorded,
instance 0 shows no output, instance 1 its own, and the host goes on. -/
theorem test_fault_is_recorded :
    let s : State :=
      { host (.transact 0 (.p2mul (.lit 7#16) (.lit 3#16))) with p2 := [(0, ⟨1#16, 1#16, 1#32⟩), (1, ⟨2#16, 2#16, 4#32⟩)] }
    (nextOf (step s)).map (fun t => (t.faults, t.p2At 0, t.p2At 1, t.hpc)) =
      some ([.preconditionViolated .p2mul 3#16], none, some ⟨2#16, 2#16, 4#32⟩, 1) := by decide

/-! ### Writing transactions -/

/-- R82's example: the word of ADD with a = 0xFFFF and b = 0x0001. -/
theorem test_word_text :
    wordText (encode (.add 0xFFFF#16 0x0001#16)) = ['0', 'x', '0', 'F', 'F', 'F', 'F', '0', '0', '0', '1'] := by decide
/-- R91: `SDIV -7, 4`, R208's example. -/
theorem test_assemble_negative :
    assemble ['S', 'D', 'I', 'V', ' ', '-', '7', ',', ' ', '4'] = some (.sdiv 0xFFF9#16 0x0004#16) := by decide
/-- 95 section 3: `SHL 0x1234, 4` is `UMUL 0x1234, 0x0010`. -/
theorem test_expand_shl : expand (.shl 0x1234#16 4) = .umul 0x1234#16 0x0010#16 := by decide
theorem test_text_of_fa : assemble (instrText (.fa true false true)) = some (.fa true false true) := by decide
theorem test_line_refused : assemble ['A', 'D', 'D', ' ', '1'] = none := by decide

/-! ### Witnesses: states and operands that meet the hypotheses of the statements -/

theorem witness_EncodeOfDecode : decode (.eng 0x5FFFFFFFF#36) = .ok (.sdiv 0xFFFF#16 0xFFFF#16) := by decide
theorem witness_OpSelect :
    (0x0#4).toNat = 0 ∧ (0x1#4).toNat = 1 ∧ (0x2#4).toNat = 2 ∧ (0x3#4).toNat = 3 ∧ (0x4#4).toNat = 4 ∧ (0x5#4).toNat = 5 ∧
    6 ≤ (0x6#4).toNat ∧ 6 ≤ (0xF#4).toNat := by decide
/-- The last position of the ripple chain: all ones and a carry-in leave a carry out. -/
theorem witness_RipplePartialSums :
    32 ≤ 32 ∧ ripple 0xFFFFFFFF#32 0#32 true 32 = (0x00000000#32, true) := by decide
/-- Each sign case of R154, at the values next to the sign change. -/
theorem witness_AddFlagsBySign :
    ((0x7FFF#16).msb = false ∧ (0x0000#16).msb = false) ∧ ((0x7FFF#16).msb = false ∧ (0x8000#16).msb = true) ∧
    ((0x8000#16).msb = true ∧ (0x7FFF#16).msb = false) ∧ ((0x8000#16).msb = true ∧ (0xFFFF#16).msb = true) := by decide
theorem witness_SubNegatesAndBorrow : (0x0001#16 : Half) ≠ 0#16 ∧ (0xFFFF#16 : Half) ≠ 0#16 := by decide
/-- On either side of 0x8000, the one subtrahend R161 sets apart. -/
theorem witness_SubSignedOverflow : (0x7FFF#16 : Half) ≠ 0x8000#16 ∧ (0x8001#16 : Half) ≠ 0x8000#16 := by decide
theorem witness_UmulAccumulator : 16 ≤ 16 ∧ umulAcc 0xFFFF#16 0xFFFF#16 16 = 0xFFFE0001#32 := by decide +kernel
/-- Both clauses of P2MUL: the least and the greatest power of two; 0, its neighbours and all ones, which are none. -/
theorem witness_P2mulExecutes :
    (0 < 16 ∧ (0x0001#16).toNat = 2 ^ 0) ∧ (15 < 16 ∧ (0x8000#16).toNat = 2 ^ 15) ∧
    ¬ PowerOfTwo 0x0000#16 ∧ ¬ PowerOfTwo 0x7FFF#16 ∧ ¬ PowerOfTwo 0x8001#16 ∧ ¬ PowerOfTwo 0xFFFF#16 := by decide
theorem witness_PowerOfTwo : PowerOfTwo 0x0001#16 ∧ PowerOfTwo 0x8000#16 := by decide
/-- The clauses of UDIV: a power of two; a divisor that is neither 0 nor one. -/
theorem witness_UdivExecutes :
    PowerOfTwo 0x0001#16 ∧ PowerOfTwo 0x8000#16 ∧ ((0x0003#16 : Half) ≠ 0#16 ∧ ¬ PowerOfTwo 0x0003#16) ∧
    ((0xFFFF#16 : Half) ≠ 0#16 ∧ ¬ PowerOfTwo 0xFFFF#16) := by decide
theorem witness_UdivShiftsLogically : 15 < 16 ∧ (0x8000#16).toNat = 2 ^ 15 := by decide
theorem witness_option_built : (fresh true).hasSignedMulDiv = true ∧ (fresh false).hasSignedMulDiv = false := by decide
/-- The clauses of SDIV: by 0, by the least and the greatest legal divisor, by 0x8000, and without the option. -/
theorem witness_SdivExecutes :
    ((fresh true).hasSignedMulDiv = true ∧ (0x0000#16 : Half) = 0#16) ∧
    ((fresh true).hasSignedMulDiv = true ∧ PositivePowerOfTwo 0x0001#16 ∧ PositivePowerOfTwo 0x4000#16) ∧
    ((fresh true).hasSignedMulDiv = true ∧ (0x8000#16 : Half) ≠ 0#16 ∧ ¬ PositivePowerOfTwo 0x8000#16) ∧
    (fresh false).hasSignedMulDiv = false := by decide
/-- A negative dividend with a remainder, at the least and the greatest dividend there is one for. -/
theorem witness_SdivIsNotAnArithmeticShift :
    (0x8001#16).toInt < 0 ∧ (0xFFFF#16).toInt < 0 ∧ (fresh true).hasSignedMulDiv = true ∧
    (1 < 15 ∧ (0x0002#16).toNat = 2 ^ 1) ∧ (14 < 15 ∧ (0x4000#16).toNat = 2 ^ 14) ∧
    BitVec.ofInt 16 (sdivRemainder 0x8001#16 0x0002#16) ≠ 0#16 ∧
    BitVec.ofInt 16 (sdivRemainder 0xFFFF#16 0x4000#16) ≠ 0#16 := by decide
/-- A run of one step that records a fault, and a good run of two steps. -/
theorem witness_RecordedFaultsStay :
    recorded (Host.Core.run Sys2Proof.core 1 (host (.readRca 0))) = some ([.readUndefinedField none .rcaSum], 1) ∧
    GoodRun (1 + 1) State.reset :=
  ⟨by decide, State.reset, rfl, rfl⟩
theorem witness_FaultPriority : exec (.smul 0#16 0#16) (fresh false) = .fault (.reservedOp 0x4#4) := rfl
/-- Every ENG operation answers a next state; both divisions also by 0. -/
theorem witness_FieldContract :
    ∀ op : EngOp, op ∈ [.add, .sub, .umul, .udiv, .smul, .sdiv] →
      (nextOf (exec (engInstr op 0xFFFF#16 0#16) (fresh true))).isSome ∧
      (nextOf (exec (engInstr op 0xFFFF#16 1#16) (fresh true))).isSome := by decide
/-- A set field and an `UNDEF` field of one record, and an output of each other block, read on their own. -/
theorem witness_HostReadsOfOutputs :
    let p : EngPorts := ⟨.add, 1#16, 2#16, addOut 1#16 2#16⟩
    let s (st : Stmt) : State :=
      { host st with eng := [(3, p)], fa := [(3, ⟨true, true, true, true, true⟩)], rca := [(3, ⟨1#32, 2#32, false, 3#32⟩)],
                     p2 := [(3, ⟨1#16, 2#16, 2#32⟩)] }
    (fetch (s (.readEng 3 .result 15)) = some (.readEng 3 .result 15) ∧ (s (.readEng 3 .result 15)).engAt 3 = some p ∧
      engNumber p.out .result = some 3 ∧ engNumber p.out .supplementalResult = none) ∧
    (fetch (s (.readFa 3 .sum 0)) = some (.readFa 3 .sum 0) ∧
      (s (.readFa 3 .sum 0)).faAt 3 = some ⟨true, true, true, true, true⟩) ∧
    (fetch (s (.readRca 3)) = some (.readRca 3) ∧ (s (.readRca 3)).rcaAt 3 = some ⟨1#32, 2#32, false, 3#32⟩) ∧
    (fetch (s (.readP2 3)) = some (.readP2 3) ∧ (s (.readP2 3)).p2At 3 = some ⟨1#16, 2#16, 2#32⟩) := by decide
theorem witness_ReadBeforeAnyTransaction :
    (fetch (host (.readFa 9 .sum 0)) = some (.readFa 9 .sum 0) ∧ (host (.readFa 9 .sum 0)).faAt 9 = none) ∧
    (fetch (host (.readRca 9)) = some (.readRca 9) ∧ (host (.readRca 9)).rcaAt 9 = none) ∧
    (fetch (host (.readEng 9 .divideByZero 15)) = some (.readEng 9 .divideByZero 15) ∧
      (host (.readEng 9 .divideByZero 15)).engAt 9 = none) ∧
    (fetch (host (.readP2 9)) = some (.readP2 9) ∧ (host (.readP2 9)).p2At 9 = none) := by decide
theorem witness_OutputsDependOnInputsAlone :
    (fresh true).hasSignedMulDiv = (host .halt).hasSignedMulDiv ∧ ∃ u, exec (.sdiv 9#16 4#16) (fresh true) = .next u :=
  ⟨rfl, _, rfl⟩
/-- Two transactions on different instances of one block, and two on one instance number of different blocks. -/
theorem witness_IndependentTransactions :
    (∃ t u, exec (.add 1#16 2#16) (State.reset.select 0) = .next t ∧ exec (.umul 3#16 4#16) (t.select 1) = .next u) ∧
    ((encode (.fa true true true)).format ≠ (encode (.p2mul 1#16 1#16)).format ∧
      ∃ t u, exec (.fa true true true) (State.reset.select 0) = .next t ∧ exec (.p2mul 1#16 1#16) (t.select 0) = .next u) :=
  ⟨⟨_, _, rfl, rfl⟩, by decide, _, _, rfl, rfl⟩
theorem witness_Repeating : ∃ t, exec (.p2mul 0xFFFF#16 0x8000#16) State.reset = .next t := ⟨_, rfl⟩
/-- A state that meets both invariants and steps to a next state by a transaction. -/
theorem witness_Invariants :
    Settled (host (.transact 0 (.fa (.lit 1#1) (.lit 1#1) (.lit 0#1) []))) ∧
    BanksWf (host (.transact 0 (.fa (.lit 1#1) (.lit 1#1) (.lit 0#1) []))) ∧
    ∃ t, step (host (.transact 0 (.fa (.lit 1#1) (.lit 1#1) (.lit 0#1) []))) = .next t := by
  refine ⟨?_, ?_, _, rfl⟩
  · simp [Settled, host, State.reset]
  · decide
/-- The cases of a transaction statement: it completes, its instruction raises, and its op code is reserved; captures named or not. -/
theorem witness_StepRunsDecoded :
    let d : Drive := .eng 0x1#4 (.lit 5#16) (.var 15) []
    let f : Drive := .eng 0x3#4 (.lit 5#16) (.lit 3#16) [(.result, 2)]
    let r : Drive := .eng 0x6#4 (.lit 5#16) (.var 15) []
    (fetch (host (.transact 7 d)) = some (.transact 7 d) ∧
      decode (driveWord State.reset.hvars d) = .ok (.sub 5#16 0#16) ∧
      nextOf (exec (.sub 5#16 0#16) ((host (.transact 7 d)).select 7)) ≠ none) ∧
    (fetch (host (.transact 7 f)) = some (.transact 7 f) ∧
      decode (driveWord State.reset.hvars f) = .ok (.udiv 5#16 3#16) ∧
      nextOf (exec (.udiv 5#16 3#16) ((host (.transact 7 f)).select 7)) = none) ∧
    (fetch (host (.transact 7 r)) = some (.transact 7 r) ∧
      decode (driveWord State.reset.hvars r) = .error (.reservedOp 0x6#4)) := by decide
/-- The captures of an ADD: a field that is set, then one that is `UNDEF`, then the first variable again. -/
def addCaptures : List (EngField × HVar) := [(.unsignedOverflow, 5), (.supplementalResult, 15), (.result, 5)]

theorem witness_CaptureEng :
    let d : Drive := .eng 0x0#4 (.lit 0xFFFF#16) (.lit 1#16) addCaptures
    let s := host (.transact 2 d)
    let p : EngPorts := ⟨.add, 0xFFFF#16, 1#16, addOut 0xFFFF#16 1#16⟩
    fetch s = some (.transact 2 d) ∧
    decode (driveWord s.hvars d) = .ok (engInstr .add 0xFFFF#16 1#16) ∧
    exec (engInstr .add 0xFFFF#16 1#16) (s.select 2) = .next ((s.select 2).putEng p) ∧
    ((s.select 2).putEng p).engAt 2 = some p ∧
    (addCaptures = [(.unsignedOverflow, 5), (.supplementalResult, 15)] ++ (.result, 5) :: [] ∧
      engNumber p.out .result = some 0) ∧
    engNumber p.out .supplementalResult = none ∧ (∀ c ∈ addCaptures, c.2 ≠ 0) :=
  ⟨by decide, by decide, rfl, by decide, ⟨rfl, by decide⟩, by decide, by decide⟩

theorem witness_CaptureFa :
    let d : Drive := .fa (.lit 1#1) (.lit 1#1) (.var 0) [(.sum, 0), (.carryOut, 15)]
    let s := host (.transact 2 d)
    let p : FaPorts := ⟨true, true, false, false, true⟩
    fetch s = some (.transact 2 d) ∧ decode (driveWord s.hvars d) = .ok (.fa true true false) ∧
    exec (.fa true true false) (s.select 2) = .next ((s.select 2).putFa p) ∧ ((s.select 2).putFa p).faAt 2 = some p ∧
    (∀ c ∈ ([(.carryOut, 15)] : List (FaField × HVar)), c.2 ≠ 0) :=
  ⟨by decide, by decide, rfl, by decide, by decide⟩
theorem witness_HostStatements :
    fetch (host (.assign 15 0xFFFF#16)) = some (.assign 15 0xFFFF#16) ∧ fetch (host (.ifZero 0 9)) = some (.ifZero 0 9) ∧
    fetch (host (.ifNonzero 0 9)) = some (.ifNonzero 0 9) ∧ fetch (host (.goto 0)) = some (.goto 0) ∧
    fetch (host .halt) = some .halt := by decide
theorem witness_NothingRuns : State.reset.prog.length ≤ State.reset.hpc := by decide
theorem witness_Placed :
    (decodeTableWord 40 0x500000000 = some (.sdiv 0#16 0#16) ∧
      nextOf (exec (.sdiv 0#16 0#16) ((State.reset.withFetchWord 40 0x500000000).select 0)) ≠ none) ∧
    (decodeTableWord 32 0x00000000 = some (.p2mul 0#16 0#16) ∧
      exec (.p2mul 0#16 0#16) ((State.reset.withFetchWord 32 0x00000000).select 0) =
        .fault (.preconditionViolated .p2mul 0#16)) :=
  ⟨by decide, by decide, rfl⟩
theorem witness_Frames :
    (∃ t, exec (.fa true true true) State.reset = .next t) ∧
    (∃ t, exec (.rca32 0xFFFFFFFF#32 0xFFFFFFFF#32 true) State.reset = .next t) ∧
    (∃ t, exec (engInstr .sub 0#16 0x8000#16) State.reset = .next t) ∧
    (∃ t, exec (.p2mul 0xFFFF#16 0x8000#16) State.reset = .next t) :=
  ⟨⟨_, rfl⟩, ⟨_, rfl⟩, ⟨_, rfl⟩, ⟨_, rfl⟩⟩

end Sys2Proof.Tests
end

section
/-! The adder chain in closed form (spec 40 R125 to R128): what one full adder adds per position, carried along the chain. -/

namespace Sys2Proof.Machine

/-- The low `i + 1` bits of a word are its low `i` bits and bit `i`. -/
theorem toNat_mod_two_pow_succ {w : Nat} (x : BitVec w) (i : Nat) :
    x.toNat % 2 ^ (i + 1) = x.toNat % 2 ^ i + 2 ^ i * (x.getLsbD i).toNat := by
  rw [Nat.mod_pow_succ, ← BitVec.testBit_toNat, Nat.toNat_testBit]

/-- The loop invariant of the chain: after `n` positions the accumulator has `n` bits, and with the running carry it is the sum of the
operands' low `n` bits and the carry-in (R125, R127). -/
theorem ripple_invariant (a b : Wide) (c : Bool) (n : Nat) (hn : n ≤ 32) :
    (ripple a b c n).1.toNat < 2 ^ n ∧
    (ripple a b c n).1.toNat + 2 ^ n * (ripple a b c n).2.toNat = a.toNat % 2 ^ n + b.toNat % 2 ^ n + c.toNat := by
  induction n with
  | zero => simp [ripple, Nat.mod_one]
  | succ i ih =>
    obtain ⟨hlt, hsum⟩ := ih (by omega)
    have hcount := congrArg (2 ^ i * ·) (fullAdd_count (a.getLsbD i) (b.getLsbD i) (ripple a b c i).2)
    simp only [mul_add, Nat.mul_left_comm _ 2] at hcount
    have hbit (s : Bool) : 2 ^ i * s.toNat ≤ 2 ^ i := mul_le_of_le_one_right (Nat.zero_le _) (Bool.toNat_le s)
    rw [toNat_mod_two_pow_succ, toNat_mod_two_pow_succ, pow_succ', mul_assoc]
    simp only [ripple, withBit_toNat _ i (by omega) hlt]
    constructor
    · have := hbit (fullAdd (a.getLsbD i) (b.getLsbD i) (ripple a b c i).2).1
      omega
    · omega

/-- RCA32 adds modulo 2^32 (R126). -/
theorem rca32_toNat (a b : Wide) (c : Bool) : (rca32 a b c).toNat = (a.toNat + b.toNat + c.toNat) % 2 ^ 32 := by
  obtain ⟨hlt, hsum⟩ := ripple_invariant a b c 32 le_rfl
  rw [Nat.mod_eq_of_lt a.isLt, Nat.mod_eq_of_lt b.isLt] at hsum
  rw [rca32, ← hsum, Nat.add_mul_mod_self_left, Nat.mod_eq_of_lt hlt]

end Sys2Proof.Machine
end

section
/-! ADD and SUB: the records of the meanings are those of the laws (spec 41). -/

namespace Sys2Proof.Machine

/-- Bit 15 of a 16-bit value is its sign. -/
theorem getLsbD_15_eq (a : Half) : a.getLsbD 15 = decide (2 ^ 15 ≤ a.toNat) := by
  rw [← BitVec.msb_eq_getLsbD_last a, BitVec.msb_eq_decide]

/-- The signed value of a 16-bit word in terms of its unsigned value. -/
theorem half_toInt (a : Half) : a.toInt = if a.toNat < 2 ^ 15 then (a.toNat : Int) else a.toNat - 2 ^ 16 := by
  rw [BitVec.toInt_eq_toNat_cond]
  split <;> split <;> omega

/-- The sum of two zero-extended operands does not wrap (R150). -/
theorem addSum_toNat (a b : Half) : (addSum a b).toNat = a.toNat + b.toNat := by
  have := a.isLt
  have := b.isLt
  rw [addSum, rca32_toNat, zext32_toNat, zext32_toNat, Bool.toNat_false]
  omega

/-- The low half of the 32-bit sum is the wrapped sum (R153). -/
theorem addSum_low (a b : Half) : (addSum a b).extractLsb' 0 16 = BitVec.ofNat 16 (a.toNat + b.toNat) := by
  apply BitVec.eq_of_toNat_eq
  rw [BitVec.extractLsb'_toNat, addSum_toNat, BitVec.toNat_ofNat, Nat.shiftRight_zero]

/-- ADD's unsigned overflow is that the sum needs more than 16 bits (R151). -/
theorem addUnsignedOverflow_addSum (a b : Half) :
    addUnsignedOverflow (addSum a b) = decide (2 ^ 16 ≤ a.toNat + b.toNat) := by
  have := a.isLt
  have := b.isLt
  rw [Bool.eq_iff_iff, addUnsignedOverflow, bne_iff_ne, Ne, BitVec.toNat_eq, BitVec.extractLsb'_toNat, addSum_toNat,
    Nat.shiftRight_eq_div_pow, decide_eq_true_eq]
  simp only [BitVec.toNat_ofNat]
  omega

/-- ADD's signed overflow is that the signed sum does not fit in 16 bits (R152). -/
theorem addSignedOverflow_addSum (a b : Half) :
    addSignedOverflow a b (addSum a b) = decide (OutsideSigned16 (a.toInt + b.toInt)) := by
  have := a.isLt
  have := b.isLt
  have hbit : (addSum a b).getLsbD 15 = decide ((a.toNat + b.toNat) / 2 ^ 15 % 2 = 1) := by
    rw [← BitVec.testBit_toNat, addSum_toNat, Nat.testBit_eq_decide_div_mod_eq]
  rw [Bool.eq_iff_iff, addSignedOverflow, hbit, getLsbD_15_eq, getLsbD_15_eq, half_toInt, half_toInt]
  simp only [Bool.and_eq_true, beq_iff_eq, bne_iff_ne, decide_eq_decide, ne_eq, decide_eq_true_eq, OutsideSigned16]
  split <;> split <;> omega

/-- The record of ADD is the one R151 to R153 give. -/
theorem addOut_eq_addLaw (a b : Half) : addOut a b = addLaw a b := by
  rw [addOut, addLaw, addSum_low, addUnsignedOverflow_addSum, addSignedOverflow_addSum]

/-- The negated subtrahend is the two's complement (R159). -/
theorem subNegate_eq_neg (b : Half) : subNegate b = -b := by
  rw [subNegate, addSum_low, BitVec.ofNat_add, BitVec.neg_eq_not_add]
  simp only [BitVec.ofNat_toNat, BitVec.setWidth_eq]

/-- The record of SUB is the one R160 to R162 give. -/
theorem subOut_eq_subLaw (a b : Half) : subOut a b = subLaw a b := by
  have hresult : BitVec.ofNat 16 (a.toNat + (-b).toNat) = BitVec.ofInt 16 ((a.toNat : Int) - b.toNat) := by
    have := b.isLt
    apply BitVec.eq_of_toNat_eq
    rw [BitVec.toNat_ofNat, BitVec.toNat_ofInt, BitVec.toNat_neg]
    omega
  have hsigned : decide (OutsideSigned16 (a.toInt + (-b).toInt)) =
      if b = 0x8000#16 then a.getLsbD 15 else decide (OutsideSigned16 (a.toInt - b.toInt)) := by
    rw [BitVec.toInt_neg_eq_ite, show BitVec.intMin 16 = 0x8000#16 from rfl]
    split
    · next hb =>
      have := a.isLt
      have hmin : (0x8000#16).toInt = -2 ^ 15 := rfl
      rw [getLsbD_15_eq, hb, hmin, half_toInt, decide_eq_decide, OutsideSigned16]
      split <;> omega
    · rw [Int.sub_eq_add_neg]
  rw [subOut, subLaw, addOut_eq_addLaw, subNegate_eq_neg, addLaw, subUnsignedOverflow, hresult, hsigned]

end Sys2Proof.Machine
end

section
/-! UMUL, P2MUL, UDIV, SMUL and SDIV: the records of the meanings are those of the laws (spec 42). -/

namespace Sys2Proof.Machine

/-- The two halves of an integer's 32-bit two's complement (R186, R204). -/
theorem productOut_ofInt (z : Int) :
    productOut (BitVec.ofInt 32 z) =
      { result := some (BitVec.ofInt 16 z), supplementalResult := some (BitVec.ofInt 16 (z / 2 ^ 16)),
        unsignedOverflow := none, signedOverflow := none, divideByZero := some false } := by
  have hlow : (BitVec.ofInt 32 z).extractLsb' 0 16 = BitVec.ofInt 16 z := by
    apply BitVec.eq_of_toNat_eq
    rw [BitVec.extractLsb'_toNat, BitVec.toNat_ofInt, BitVec.toNat_ofInt, Nat.shiftRight_zero]
    omega
  have hhigh : (BitVec.ofInt 32 z).extractLsb' 16 16 = BitVec.ofInt 16 (z / 2 ^ 16) := by
    apply BitVec.eq_of_toNat_eq
    rw [BitVec.extractLsb'_toNat, BitVec.toNat_ofInt, BitVec.toNat_ofInt, Nat.shiftRight_eq_div_pow]
    omega
  rw [productOut, hlow, hhigh]

/-- Shifting a 16-bit value left by at most 15 places in 32 bits loses no bit (R186, R190). -/
theorem zext32_shiftLeft_toNat (a : Half) {k : Nat} (hk : k < 16) : (zext32 a <<< k).toNat = a.toNat * 2 ^ k := by
  have hpow : 2 ^ k ≤ 2 ^ 15 := Nat.pow_le_pow_right (by norm_num) (by omega)
  have hlt : a.toNat * 2 ^ k < 2 ^ 16 * 2 ^ 15 := Nat.mul_lt_mul_of_lt_of_le a.isLt hpow (by norm_num)
  rw [BitVec.toNat_shiftLeft, zext32_toNat, Nat.shiftLeft_eq, Nat.mod_eq_of_lt (by omega)]

/-- The accumulator of UMUL is the product with the multiplier's low bits: no addition of the loop wraps (R186). -/
theorem umulAcc_toNat (a b : Half) (n : Nat) (hn : n ≤ 16) : (umulAcc a b n).toNat = a.toNat * (b.toNat % 2 ^ n) := by
  induction n with
  | zero => simp [umulAcc, Nat.mod_one]
  | succ i ih =>
    rw [toNat_mod_two_pow_succ, mul_add, ← ih (by omega), umulAcc]
    cases hbit : b.getLsbD i with
    | false => simp
    | true =>
      have hle : a.toNat * (b.toNat % 2 ^ (i + 1)) ≤ (2 ^ 16 - 1) * (2 ^ 16 - 1) :=
        Nat.mul_le_mul (by omega) (by have := Nat.mod_le b.toNat (2 ^ (i + 1)); omega)
      rw [toNat_mod_two_pow_succ, mul_add, ← ih (by omega), hbit] at hle
      simp only [Bool.toNat_true, mul_one, if_true] at hle ⊢
      rw [rca32_toNat, zext32_shiftLeft_toNat a (by omega), Bool.toNat_false, Nat.mod_eq_of_lt (by omega), add_zero]

/-- The record of UMUL holds the exact product in two halves (R186). -/
theorem productOut_umulAcc (a b : Half) : productOut (umulAcc a b 16) = umulLaw a b := by
  have hacc : umulAcc a b 16 = BitVec.ofInt 32 ((a.toNat * b.toNat : Nat) : Int) := by
    apply BitVec.eq_of_toNat_eq
    rw [umulAcc_toNat a b 16 le_rfl, Nat.mod_eq_of_lt b.isLt, BitVec.ofInt_natCast, BitVec.toNat_ofNat,
      Nat.mod_eq_of_lt (Nat.mul_lt_mul'' a.isLt b.isLt)]
  have hhigh : ((a.toNat * b.toNat : Nat) : Int) / 2 ^ 16 = ((a.toNat * b.toNat / 2 ^ 16 : Nat) : Int) := by omega
  have hlow : BitVec.ofNat 16 (a.toNat * b.toNat % 2 ^ 16) = BitVec.ofNat 16 (a.toNat * b.toNat) :=
    BitVec.eq_of_toNat_eq (by simp)
  rw [hacc, productOut_ofInt, hhigh, BitVec.ofInt_natCast, BitVec.ofInt_natCast, umulLaw, hlow]

/-- The record of SMUL holds the exact signed product in two halves (R204). -/
theorem productOut_smulProduct (a b : Half) : productOut (smulProduct a b) = smulLaw a b := by
  rw [smulProduct, productOut_ofInt, smulLaw]

/-- By a power of two the logical shift and the mask of UDIV are quotient and remainder (R196 to R198). -/
theorem quotientOut_udiv (a : Half) {b : Half} (h : PowerOfTwo b) :
    quotientOut (udivQuotient a b) (udivRemainder a b) = udivLaw a b := by
  obtain ⟨k, hk, hb⟩ := h
  have ha := a.isLt
  have hquotient : udivQuotient a b = BitVec.ofNat 16 (a.toNat / b.toNat) := by
    apply BitVec.eq_of_toNat_eq
    rw [udivQuotient, log2_of_pow hk hb, BitVec.toNat_ushiftRight, Nat.shiftRight_eq_div_pow, ← hb, BitVec.toNat_ofNat,
      Nat.mod_eq_of_lt (lt_of_le_of_lt (Nat.div_le_self ..) ha)]
  have hremainder : udivRemainder a b = BitVec.ofNat 16 (a.toNat % b.toNat) := by
    have hpred : (b - 0x0001#16).toNat = 2 ^ k - 1 := by
      have hpos : 0 < 2 ^ k := by positivity
      have := b.isLt
      rw [BitVec.toNat_sub_of_le (by rw [BitVec.le_def]; simp; omega), hb]
      rfl
    apply BitVec.eq_of_toNat_eq
    rw [udivRemainder, BitVec.toNat_and, hpred, Nat.and_two_pow_sub_one_eq_mod, ← hb, BitVec.toNat_ofNat,
      Nat.mod_eq_of_lt (lt_of_le_of_lt (Nat.mod_le ..) ha)]
  rw [quotientOut, udivLaw, hquotient, hremainder]

/-- The record of SDIV by a legal nonzero divisor is quotient and remainder rounded toward zero (R208). -/
theorem sdivOut_eq_sdivLaw (a : Half) {b : Half} (h : PositivePowerOfTwo b) : sdivOut a b = sdivLaw a b := by
  rw [sdivOut, quotientOut, sdivLaw, sdivRemainder, sdivQuotient_eq a h, Int.tmod_def, mul_comm]

end Sys2Proof.Machine
end

section
/-! What each block's transaction puts where it completes, in the terms of the laws of Safety.lean. -/

namespace Sys2Proof.Machine

/-- An ENG transaction completes exactly where its operation's law gives a record, and then puts that record and its inputs in
place of whatever the addressed ENG showed (R34, R36, R37). -/
theorem exec_engInstr_next_iff {op : EngOp} {a b : Half} {s t : State} :
    exec (engInstr op a b) s = .next t ↔
      ∃ out, engLaw s.hasSignedMulDiv op a b = some out ∧ t = s.putEng { op := op, a := a, b := b, out := out } := by
  have hzero : b = 0x0000#16 ↔ b.toNat = 0 := BitVec.toNat_eq
  cases op with
  | add => simp [engInstr, exec, execAdd, engLaw, addOut_eq_addLaw, eq_comm]
  | sub => simp [engInstr, exec, execSub, engLaw, subOut_eq_subLaw, eq_comm]
  | umul => simp [engInstr, exec, execUmul, engLaw, productOut_umulAcc, eq_comm]
  | udiv =>
    simp only [engInstr, exec, execUdiv, engLaw, hzero, isPow2_iff]
    split
    · simp [zeroDivideOut, zeroDivideLaw, eq_comm]
    · split
      · next hb => simp [quotientOut_udiv a hb, eq_comm]
      · simp [raise]
  | smul =>
    simp only [engInstr, exec, execSmul, engLaw, productOut_smulProduct]
    split
    · simp [eq_comm]
    · simp [raise]
  | sdiv =>
    simp only [engInstr, exec, execSdiv, engLaw, hzero, isPosPow2_iff]
    split
    · split
      · simp [zeroDivideOut, zeroDivideLaw, eq_comm]
      · split
        · next hb => simp [sdivOut_eq_sdivLaw a hb, eq_comm]
        · simp [raise]
    · simp [raise]

/-- FA completes by putting ports whose outputs are the arithmetic function of its inputs (R120, R122). -/
theorem exec_fa_next {a b c : Bool} {s t : State} (h : exec (.fa a b c) s = .next t) :
    ∃ p : FaPorts, FaSettled p ∧ t = s.putFa p := by
  injection h with h
  refine ⟨_, ?_, h.symm⟩
  exact fullAdd_count a b c

/-- RCA32 completes by putting ports whose sum is the function of its inputs that R126 gives. -/
theorem exec_rca32_next {a b : Wide} {c : Bool} {s t : State} (h : exec (.rca32 a b c) s = .next t) :
    ∃ p : RcaPorts, RcaSettled p ∧ t = s.putRca p := by
  injection h with h
  refine ⟨_, ?_, h.symm⟩
  exact rca32_toNat a b c

/-- P2MUL completes by putting ports with a legal operand and the exact product (R190, R193). -/
theorem exec_p2mul_next {x p : Half} {s t : State} (h : exec (.p2mul x p) s = .next t) :
    ∃ q : P2Ports, P2Settled q ∧ t = s.putP2 q := by
  rw [exec, execP2mul] at h
  split at h
  · next hp =>
    injection h with h
    obtain ⟨k, hk, hpk⟩ := (isPow2_iff p).1 hp
    refine ⟨_, ⟨⟨k, hk, hpk⟩, ?_⟩, h.symm⟩
    rw [log2_of_pow hk hpk, zext32_shiftLeft_toNat x hk, hpk]
  · cases h

end Sys2Proof.Machine
end

section
/-! What every step keeps: settled outputs (R34, R49) and the build parameter (R32). -/

namespace Sys2Proof.Machine

theorem forall_mem_bankPut {α : Type} {P : α → Prop} {k : Nat} {v : α} {b : Bank α} (hv : P v) (hb : ∀ e ∈ b, P e.2) :
    ∀ e ∈ bankPut k v b, P e.2 := by
  intro e he
  rcases mem_bankPut he with rfl | he
  · exact hv
  · exact hb e he

theorem Settled.putFa {s : State} {p : FaPorts} (h : Settled s) (hp : FaSettled p) : Settled (s.putFa p) := by
  obtain ⟨hfa, hrca, heng, hp2⟩ := h
  exact ⟨forall_mem_bankPut hp hfa, hrca, heng, hp2⟩

theorem Settled.putRca {s : State} {p : RcaPorts} (h : Settled s) (hp : RcaSettled p) : Settled (s.putRca p) := by
  obtain ⟨hfa, hrca, heng, hp2⟩ := h
  exact ⟨hfa, forall_mem_bankPut hp hrca, heng, hp2⟩

theorem Settled.putEng {s : State} {p : EngPorts} (h : Settled s) (hp : EngSettled s.hasSignedMulDiv p) :
    Settled (s.putEng p) := by
  obtain ⟨hfa, hrca, heng, hp2⟩ := h
  exact ⟨hfa, hrca, forall_mem_bankPut hp heng, hp2⟩

theorem Settled.putP2 {s : State} {p : P2Ports} (h : Settled s) (hp : P2Settled p) : Settled (s.putP2 p) := by
  obtain ⟨hfa, hrca, heng, hp2⟩ := h
  exact ⟨hfa, hrca, heng, forall_mem_bankPut hp hp2⟩

/-- Where no output is shown there is none to settle. -/
theorem Settled.of_drop {s t : State} (h : Settled s)
    (ht : t = s.dropFa ∨ t = s.dropRca ∨ t = s.dropEng ∨ t = s.dropP2) : Settled t := by
  obtain ⟨hfa, hrca, heng, hp2⟩ := h
  rcases ht with rfl | rfl | rfl | rfl
  · exact ⟨fun e he => hfa e (mem_bankDrop he), hrca, heng, hp2⟩
  · exact ⟨hfa, fun e he => hrca e (mem_bankDrop he), heng, hp2⟩
  · exact ⟨hfa, hrca, fun e he => heng e (mem_bankDrop he), hp2⟩
  · exact ⟨hfa, hrca, heng, fun e he => hp2 e (mem_bankDrop he)⟩

theorem execEng_settled {op : EngOp} {a b : Half} {s t : State} (h : Settled s)
    (ht : exec (engInstr op a b) s = .next t) : Settled t := by
  obtain ⟨out, hout, rfl⟩ := exec_engInstr_next_iff.1 ht
  exact h.putEng hout

/-- Every transaction that completes leaves outputs that are the function of its inputs (R34). -/
theorem exec_settled {i : Instr} {s t : State} (h : Settled s) (ht : exec i s = .next t) : Settled t := by
  cases i with
  | fa a b c =>
    obtain ⟨p, hp, rfl⟩ := exec_fa_next ht
    exact h.putFa hp
  | rca32 a b c =>
    obtain ⟨p, hp, rfl⟩ := exec_rca32_next ht
    exact h.putRca hp
  | p2mul x p =>
    obtain ⟨q, hq, rfl⟩ := exec_p2mul_next ht
    exact h.putP2 hq
  | add a b => exact execEng_settled (op := .add) h ht
  | sub a b => exact execEng_settled (op := .sub) h ht
  | umul a b => exact execEng_settled (op := .umul) h ht
  | udiv a b => exact execEng_settled (op := .udiv) h ht
  | smul a b => exact execEng_settled (op := .smul) h ht
  | sdiv a b => exact execEng_settled (op := .sdiv) h ht

/-- What every completed transaction, every drop of ports after a fault and every change of the host's own fields keeps, every step
keeps. -/
theorem step_keeps {P : State → Prop} (hexec : ∀ {i s t}, P s → exec i s = .next t → P t)
    (hdrop : ∀ {s t : State}, P s → t = s.dropFa ∨ t = s.dropRca ∨ t = s.dropEng ∨ t = s.dropP2 → P t)
    (hhost : ∀ (s : State) k hv m l n, P s → P { s with sel := k, hvars := hv, hpc := m, faults := l, draws := n })
    {s t : State} (hs : P s) (ht : step s = .next t) : P t := by
  rcases step_cases s with
    ⟨k, d, i, u, hv, l, n, -, -, hi, hstep⟩ | ⟨k, d, f, r, u, hv, n, -, -, rfl, hu, hstep⟩ | ⟨hv, m, l, n, hstep⟩
  all_goals
    rw [hstep] at ht
    injection ht with ht
    subst ht
  · exact hhost u _ _ _ _ _ (hexec (hhost s k _ _ _ _ hs) hi)
  · exact hhost u _ _ _ _ _ (hdrop (hhost s k _ _ _ _ hs) hu)
  · exact hhost s _ _ _ _ _ hs

/-- Settles O44. A transaction that completes puts settled ports, a faulted one only takes ports away, and the host's own fields are
no ports. -/
theorem stepKeepsOutputsSettled : Obligations.StepKeepsOutputsSettled := by
  intro s t hs ht
  exact step_keeps exec_settled Settled.of_drop (fun _ _ _ _ _ _ h => h) hs ht

/-- A transaction that completes keeps the build parameter (R32). -/
theorem exec_hasSignedMulDiv {i : Instr} {s t : State} (h : exec i s = .next t) :
    t.hasSignedMulDiv = s.hasSignedMulDiv := by
  rcases exec_cases h with ⟨p, rfl⟩ | ⟨p, rfl⟩ | ⟨p, rfl⟩ | ⟨p, rfl⟩ <;> rfl

/-- Settles O48: puts, drops and the host's own fields all leave `hasSignedMulDiv` alone. -/
theorem buildParameterNeverChanges : Obligations.BuildParameterNeverChanges := by
  intro s t ht
  refine step_keeps (P := fun u => u.hasSignedMulDiv = s.hasSignedMulDiv)
    (fun hu hi => (exec_hasSignedMulDiv hi).trans hu)
    (fun hu hd => ?_) (fun _ _ _ _ _ _ hu => hu) rfl ht
  rcases hd with rfl | rfl | rfl | rfl <;> exact hu

/-- Settles O46. At reset every bank is empty, so both invariants quantify over nothing. -/
theorem resetMeetsTheInvariants : Obligations.ResetMeetsTheInvariants :=
  ⟨⟨List.forall_mem_nil _, List.forall_mem_nil _, List.forall_mem_nil _, List.forall_mem_nil _⟩,
    .nil, .nil, .nil, .nil⟩

end Sys2Proof.Machine
end

section
/-! Frames of the transactions (R34, R68). -/

namespace Sys2Proof.Machine

/-- Settles O56: FA is one put on the FA bank. -/
theorem faFrame : Obligations.FaFrame := by
  intro a b c s t ht
  obtain ⟨p, -, rfl⟩ := exec_fa_next ht
  exact ⟨fun k hk => bankGet_bankPut_other hk _ _, rfl, rfl, rfl, rfl, rfl, rfl, rfl, rfl, rfl, rfl⟩

/-- Settles O57: RCA32 is one put on the RCA32 bank. -/
theorem rca32Frame : Obligations.Rca32Frame := by
  intro a b c s t ht
  obtain ⟨p, -, rfl⟩ := exec_rca32_next ht
  exact ⟨fun k hk => bankGet_bankPut_other hk _ _, rfl, rfl, rfl, rfl, rfl, rfl, rfl, rfl, rfl, rfl⟩

/-- The addressed ENG shows the ports just put. -/
@[simp] theorem State.engAt_putEng (s : State) (p : EngPorts) : (s.putEng p).engAt s.sel = some p :=
  bankGet_bankPut_same _ _ _

/-- Settles O58: an ENG transaction is one put, of the record of its law, on the ENG bank. -/
theorem engFrame : Obligations.EngFrame := by
  intro op a b s t ht
  obtain ⟨out, hout, rfl⟩ := exec_engInstr_next_iff.1 ht
  refine ⟨fun k hk => bankGet_bankPut_other hk _ _, rfl, rfl, rfl, rfl, rfl, rfl, rfl, rfl, rfl, rfl, ?_⟩
  rw [State.engAt_putEng, hout, Option.map_some]

/-- Settles O59: P2MUL is one put on the P2MUL bank. -/
theorem p2mulFrame : Obligations.P2mulFrame := by
  intro x p s t ht
  obtain ⟨q, -, rfl⟩ := exec_p2mul_next ht
  exact ⟨fun k hk => bankGet_bankPut_other hk _ _, rfl, rfl, rfl, rfl, rfl, rfl, rfl, rfl, rfl, rfl⟩

end Sys2Proof.Machine
end

section
/-! The field contract of the ENG record (R37 to R40). -/

namespace Sys2Proof.Machine

/-- Which fields an ENG record sets and which it leaves `UNDEF` (R37 to R40). -/
def FieldsAsContracted (op : EngOp) (b : Half) (out : WideResult) : Prop :=
  (out.result = none ↔ (op = .udiv ∨ op = .sdiv) ∧ b = 0#16) ∧
  (out.supplementalResult = none ↔ op = .add ∨ op = .sub ∨ ((op = .udiv ∨ op = .sdiv) ∧ b = 0#16)) ∧
  (out.unsignedOverflow = none ↔ op ≠ .add ∧ op ≠ .sub) ∧
  (out.signedOverflow = none ↔ op ≠ .add ∧ op ≠ .sub) ∧
  out.divideByZero = some (decide ((op = .udiv ∨ op = .sdiv) ∧ b = 0#16))

theorem engLaw_fieldsAsContracted {h : Bool} {op : EngOp} {a b : Half} {out : WideResult}
    (hout : engLaw h op a b = some out) : FieldsAsContracted op b out := by
  have hzero : b.toNat = 0 ↔ b = 0#16 := (BitVec.toNat_eq (y := 0#16)).symm
  cases op <;> simp only [engLaw, hzero] at hout
  case add => cases hout; simp [FieldsAsContracted, addLaw]
  case sub => cases hout; simp [FieldsAsContracted, subLaw]
  case umul => cases hout; simp [FieldsAsContracted, umulLaw]
  case udiv =>
    split_ifs at hout with hb hp <;> cases hout
    · simp [FieldsAsContracted, zeroDivideLaw, hb]
    · simp [FieldsAsContracted, udivLaw, hb]
  case smul =>
    split_ifs at hout
    cases hout
    simp [FieldsAsContracted, smulLaw]
  case sdiv =>
    split_ifs at hout with hs hb hp <;> cases hout
    · simp [FieldsAsContracted, zeroDivideLaw, hb]
    · simp [FieldsAsContracted, sdivLaw, hb]

/-- Settles O38: the record shown is that of the operation's law, whose fields are read off case by case. -/
theorem fieldContract : Obligations.FieldContract := by
  intro op a b s t ht
  obtain ⟨out, hout, rfl⟩ := exec_engInstr_next_iff.1 ht
  exact ⟨out, State.engAt_putEng s _, engLaw_fieldsAsContracted hout⟩

end Sys2Proof.Machine
end

section
/-! A transaction from two states of one build (R34). -/

namespace Sys2Proof.Machine

/-- Two answers to one transaction, from `s` and from `t`: the same ports put, or the same fault. -/
inductive SameAnswer (s t : State) : Result → Result → Prop
  | fa (p : FaPorts) : SameAnswer s t (.next (s.putFa p)) (.next (t.putFa p))
  | rca (p : RcaPorts) : SameAnswer s t (.next (s.putRca p)) (.next (t.putRca p))
  | eng (p : EngPorts) : SameAnswer s t (.next (s.putEng p)) (.next (t.putEng p))
  | p2 (p : P2Ports) : SameAnswer s t (.next (s.putP2 p)) (.next (t.putP2 p))
  | fault (f : Fault) : SameAnswer s t (.fault f) (.fault f)

/-- Two answers that branch on one condition are the same if both branches are. -/
theorem SameAnswer.ite {s t : State} {c : Prop} [Decidable c] {q r q' r' : Result} (h : SameAnswer s t q q')
    (h' : SameAnswer s t r r') : SameAnswer s t (if c then q else r) (if c then q' else r') := by
  split
  · exact h
  · exact h'

/-- A meaning reads nothing of the state but the build parameter (R34). -/
theorem exec_sameAnswer (i : Instr) {s t : State} (h : s.hasSignedMulDiv = t.hasSignedMulDiv) :
    SameAnswer s t (exec i s) (exec i t) := by
  cases i with
  | fa a b c => exact .fa _
  | rca32 a b c => exact .rca _
  | add a b => exact .eng _
  | sub a b => exact .eng _
  | umul a b => exact .eng _
  | p2mul x p => exact .ite (.p2 _) (.fault _)
  | udiv a b => exact .ite (.eng _) (.ite (.eng _) (.fault _))
  | smul a b =>
    simp only [exec, execSmul, h]
    exact .ite (.eng _) (.fault _)
  | sdiv a b =>
    simp only [exec, execSdiv, h]
    exact .ite (.ite (.eng _) (.ite (.eng _) (.fault _))) (.fault _)

/-- Settles O41, by cases of what the two states answer alike. -/
theorem outputsDependOnInputsAlone : Obligations.OutputsDependOnInputsAlone := by
  intro i s t h
  have hsame := exec_sameAnswer i h
  generalize exec i s = q, exec i t = r at hsame
  cases hsame with
  | fa p => exact ⟨by simp, fun | _, rfl => ⟨_, rfl, .inl ⟨p, rfl, rfl⟩⟩⟩
  | rca p => exact ⟨by simp, fun | _, rfl => ⟨_, rfl, .inr (.inl ⟨p, rfl, rfl⟩)⟩⟩
  | eng p => exact ⟨by simp, fun | _, rfl => ⟨_, rfl, .inr (.inr (.inl ⟨p, rfl, rfl⟩))⟩⟩
  | p2 p => exact ⟨by simp, fun | _, rfl => ⟨_, rfl, .inr (.inr (.inr ⟨p, rfl, rfl⟩))⟩⟩
  | fault f => exact ⟨fun _ => Iff.rfl, nofun⟩

end Sys2Proof.Machine
end

section
/-! What sources drive the ports with (R42, R81, R83). -/

namespace Sys2Proof.Machine

/-- Of two words put together, the right one has the low bits (R81). -/
theorem toNat_append_eq {m n : Nat} (x : BitVec m) (y : BitVec n) : (x ++ y).toNat = x.toNat * 2 ^ n + y.toNat := by
  rw [BitVec.toNat_append, ← Nat.shiftLeft_add_eq_or_of_lt y.isLt, Nat.shiftLeft_eq]

theorem packFa_toNat (a b c : Bool) : (packFa a b c).toNat = a.toNat * 2 ^ 2 + b.toNat * 2 ^ 1 + c.toNat := by
  simp only [packFa, toNat_append_eq, BitVec.toNat_ofBool]
  ring

theorem packRca_toNat (a b : Wide) (c : Bool) :
    (packRca a b c).toNat = c.toNat * 2 ^ 64 + a.toNat * 2 ^ 32 + b.toNat := by
  simp only [packRca, toNat_append_eq, BitVec.toNat_ofBool]
  ring

theorem packEng_toNat (op : BitVec 4) (a b : Half) :
    (packEng op a b).toNat = op.toNat * 2 ^ 32 + a.toNat * 2 ^ 16 + b.toNat := by
  simp only [packEng, toNat_append_eq]
  ring

theorem packP2_toNat (x p : Half) : (packP2 x p).toNat = x.toNat * 2 ^ 16 + p.toNat :=
  toNat_append_eq x p

theorem srcValue_toNat {n : Nat} (src : Src n) (hv : Vector Half 16) : (srcValue src hv).toNat = portNumber hv src := by
  cases src with
  | lit v => rfl
  | var h => exact BitVec.toNat_setWidth ..

theorem srcBit_toNat (src : Src 1) (hv : Vector Half 16) : (srcBit src hv).toNat = portNumber hv src := by
  rw [← srcValue_toNat, srcBit, ← BitVec.testBit_toNat, Nat.toNat_testBit, pow_zero, Nat.div_one,
    Nat.mod_eq_of_lt (srcValue src hv).isLt]

/-- Settles O60, from the number of each source and the number of each format's word. -/
theorem sourcesDriveThePorts : Obligations.SourcesDriveThePorts := by
  intro hv
  refine ⟨fun h => BitVec.setWidth_eq _, fun h => ?_, fun h => ?_, fun a b c caps => ⟨rfl, ?_⟩, fun a b c => ⟨rfl, ?_⟩,
    fun op a b caps => ⟨rfl, ?_⟩, fun x p => ⟨rfl, ?_⟩⟩
  · simp [srcBit]
  · have := hv[h].isLt
    rw [srcValue_toNat, portNumber, Nat.mod_eq_of_lt (by omega)]
  · simp only [driveWord, TxnWord.toNat, packFa_toNat, srcBit_toNat]
  · simp only [driveWord, TxnWord.toNat, packRca_toNat, srcValue_toNat, srcBit_toNat]
  · simp only [driveWord, TxnWord.toNat, packEng_toNat, srcValue_toNat]
  · simp only [driveWord, TxnWord.toNat, packP2_toNat, srcValue_toNat]

end Sys2Proof.Machine
end

section
/-! What a transaction puts, and where: repeated transactions and transactions in either order (R68, R69, R244). -/

namespace Sys2Proof.Machine

/-- The ports a transaction that completes puts on the addressed instance, with the block they belong to. -/
inductive BlockPorts where
  | fa (p : FaPorts)
  | rca (p : RcaPorts)
  | eng (p : EngPorts)
  | p2 (p : P2Ports)

/-- The format of the words of the block the ports belong to (R81). -/
def BlockPorts.format : BlockPorts → Format
  | .fa _ => .fa
  | .rca _ => .rca
  | .eng _ => .eng
  | .p2 _ => .p2

/-- The addressed instance of the ports' block shows them. -/
def State.put (s : State) : BlockPorts → State
  | .fa p => s.putFa p
  | .rca p => s.putRca p
  | .eng p => s.putEng p
  | .p2 p => s.putP2 p

@[simp] theorem State.put_hasSignedMulDiv (s : State) (v : BlockPorts) :
    (s.put v).hasSignedMulDiv = s.hasSignedMulDiv := by
  cases v <;> rfl

@[simp] theorem State.put_put_same (s : State) (v : BlockPorts) : (s.put v).put v = s.put v := by
  cases v with
  | fa p => exact congrArg (fun b => { s with fa := b }) (bankPut_bankPut_same s.sel p p s.fa)
  | rca p => exact congrArg (fun b => { s with rca := b }) (bankPut_bankPut_same s.sel p p s.rca)
  | eng p => exact congrArg (fun b => { s with eng := b }) (bankPut_bankPut_same s.sel p p s.eng)
  | p2 p => exact congrArg (fun b => { s with p2 := b }) (bankPut_bankPut_same s.sel p p s.p2)

/-- Puts on different blocks meet different fields; on one block they meet different instances of its bank. -/
theorem State.put_comm (s : State) {v w : BlockPorts} {m n : Nat} (h : v.format ≠ w.format ∨ m ≠ n) :
    ((((s.select n).put w).select m).put v).select 0 = ((((s.select m).put v).select n).put w).select 0 := by
  have hmn : v.format = w.format → m ≠ n := fun e => h.resolve_left (absurd e)
  cases v <;> cases w
  case fa.fa p q => exact congrArg (fun b => { s with sel := 0, fa := b }) (bankPut_comm (hmn rfl) p q s.fa)
  case rca.rca p q => exact congrArg (fun b => { s with sel := 0, rca := b }) (bankPut_comm (hmn rfl) p q s.rca)
  case eng.eng p q => exact congrArg (fun b => { s with sel := 0, eng := b }) (bankPut_comm (hmn rfl) p q s.eng)
  case p2.p2 p q => exact congrArg (fun b => { s with sel := 0, p2 := b }) (bankPut_comm (hmn rfl) p q s.p2)
  all_goals rfl

/-- From every state of a build the transaction completes by putting the ports `v`, which belong to its block. -/
def Puts (build : Bool) (i : Instr) (v : BlockPorts) : Prop :=
  v.format = (encode i).format ∧ ∀ s : State, s.hasSignedMulDiv = build → exec i s = .next (s.put v)

/-- An ENG transaction that completes puts the record of its law, which depends on the build alone (R34, R36). -/
theorem exec_engInstr_puts {op : EngOp} {a b : Half} {s t : State} (h : exec (engInstr op a b) s = .next t) :
    ∃ v, Puts s.hasSignedMulDiv (engInstr op a b) v := by
  obtain ⟨out, hout, -⟩ := exec_engInstr_next_iff.1 h
  refine ⟨.eng ⟨op, a, b, out⟩, by cases op <;> rfl, fun s' hs' => ?_⟩
  exact exec_engInstr_next_iff.2 ⟨out, by rw [hs', hout], rfl⟩

/-- A transaction that completes in one state completes in every state of the build, with the same ports (R34). -/
theorem exec_puts {i : Instr} {s t : State} (h : exec i s = .next t) : ∃ v, Puts s.hasSignedMulDiv i v := by
  cases i with
  | fa a b c => exact ⟨.fa _, rfl, fun _ _ => rfl⟩
  | rca32 a b c => exact ⟨.rca _, rfl, fun _ _ => rfl⟩
  | p2mul x p =>
    rw [exec, execP2mul] at h
    split at h
    · next hp => exact ⟨.p2 _, rfl, fun _ _ => if_pos hp⟩
    · cases h
  | add a b => exact exec_engInstr_puts (op := .add) h
  | sub a b => exact exec_engInstr_puts (op := .sub) h
  | umul a b => exact exec_engInstr_puts (op := .umul) h
  | udiv a b => exact exec_engInstr_puts (op := .udiv) h
  | smul a b => exact exec_engInstr_puts (op := .smul) h
  | sdiv a b => exact exec_engInstr_puts (op := .sdiv) h

/-- Settles O43: the second transaction puts the ports that the first put on the same instance. -/
theorem repeatingATransactionChangesNothing : Obligations.RepeatingATransactionChangesNothing := by
  intro i s t h
  obtain ⟨v, -, hv⟩ := exec_puts h
  rw [hv s rfl] at h
  cases h
  rw [hv _ (s.put_hasSignedMulDiv v), State.put_put_same]

/-- Settles O42: each transaction puts the same ports in either order, and the two puts commute. -/
theorem independentTransactionsCommute : Obligations.IndependentTransactionsCommute := by
  intro i j m n s t u hne ht hu
  obtain ⟨v, hvf, hv⟩ := exec_puts ht
  rw [hv _ rfl] at ht
  cases ht
  obtain ⟨w, hwf, hw⟩ := exec_puts hu
  rw [hw _ rfl] at hu
  cases hu
  rw [← hvf, ← hwf] at hne
  have build (k l : Nat) (x : BlockPorts) : (((s.select k).put x).select l).hasSignedMulDiv = s.hasSignedMulDiv :=
    (s.select k).put_hasSignedMulDiv x
  exact ⟨_, _, hw _ (build m n v).symm, hv _ (build n m w), s.put_comm hne⟩

end Sys2Proof.Machine
end

section
/-! What every step keeps: the host program (R72). -/

namespace Sys2Proof.Machine

/-- A transaction that completes keeps the host program (R72). -/
theorem exec_prog {i : Instr} {s t : State} (h : exec i s = .next t) : t.prog = s.prog := by
  rcases exec_cases h with ⟨p, rfl⟩ | ⟨p, rfl⟩ | ⟨p, rfl⟩ | ⟨p, rfl⟩ <;> rfl

/-- Settles O49: puts, drops and the host's own statements all leave `prog` alone. -/
theorem stepKeepsTheHostProgram : Obligations.StepKeepsTheHostProgram := by
  intro s t ht
  refine step_keeps (P := fun u => u.prog = s.prog)
    (fun hu hi => (exec_prog hi).trans hu)
    (fun hu hd => ?_) (fun _ _ _ _ _ _ hu => hu) rfl ht
  rcases hd with rfl | rfl | rfl | rfl <;> exact hu

end Sys2Proof.Machine
end

section
/-! Transaction words: the fields of each format's word, and what the decoder and the encoder make of them (spec 30 R81 to R89). -/

namespace Sys2Proof.Machine

/-! Reading the fields back out of a packed word. -/

/-- One bit of a word as the one-bit field it is. -/
theorem ofBool_getLsbD {n : Nat} (w : BitVec n) (i : Nat) : BitVec.ofBool (w.getLsbD i) = w.extractLsb' i 1 := by
  apply BitVec.eq_of_getLsbD_eq
  intro j hj
  obtain rfl : j = 0 := by omega
  simp

theorem packFa_a (a b c : Bool) : (packFa a b c).getLsbD 2 = a := by
  rw [← BitVec.ofBool_eq_iff_eq, ofBool_getLsbD, packFa, BitVec.extractLsb'_append_eq_of_le (by decide),
    BitVec.extractLsb'_append_eq_left]

theorem packFa_b (a b c : Bool) : (packFa a b c).getLsbD 1 = b := by
  rw [← BitVec.ofBool_eq_iff_eq, ofBool_getLsbD, packFa, BitVec.extractLsb'_append_eq_of_le le_rfl, Nat.sub_self,
    BitVec.extractLsb'_append_eq_right]

theorem packFa_cIn (a b c : Bool) : (packFa a b c).getLsbD 0 = c := by
  rw [← BitVec.ofBool_eq_iff_eq, ofBool_getLsbD, packFa, BitVec.extractLsb'_append_eq_right]

theorem packRca_a (a b : Wide) (c : Bool) : (packRca a b c).extractLsb' 32 32 = a := by
  rw [packRca, BitVec.extractLsb'_append_eq_of_le le_rfl, Nat.sub_self, BitVec.extractLsb'_append_eq_right]

theorem packRca_b (a b : Wide) (c : Bool) : (packRca a b c).extractLsb' 0 32 = b :=
  BitVec.extractLsb'_append_eq_right

theorem packRca_cIn (a b : Wide) (c : Bool) : (packRca a b c).getLsbD 64 = c := by
  rw [← BitVec.ofBool_eq_iff_eq, ofBool_getLsbD, packRca, BitVec.extractLsb'_append_eq_of_le (by decide),
    BitVec.extractLsb'_append_eq_left]

theorem packEng_op (op : BitVec 4) (a b : Half) : (packEng op a b).extractLsb' 32 4 = op := by
  rw [packEng, BitVec.extractLsb'_append_eq_of_le (by decide), BitVec.extractLsb'_append_eq_left]

theorem packEng_a (op : BitVec 4) (a b : Half) : (packEng op a b).extractLsb' 16 16 = a := by
  rw [packEng, BitVec.extractLsb'_append_eq_of_le le_rfl, Nat.sub_self, BitVec.extractLsb'_append_eq_right]

theorem packEng_b (op : BitVec 4) (a b : Half) : (packEng op a b).extractLsb' 0 16 = b :=
  BitVec.extractLsb'_append_eq_right

theorem packP2_x (x p : Half) : (packP2 x p).extractLsb' 16 16 = x :=
  BitVec.extractLsb'_append_eq_left

theorem packP2_p (x p : Half) : (packP2 x p).extractLsb' 0 16 = p :=
  BitVec.extractLsb'_append_eq_right

/-! Packing the fields of a word again. -/

theorem packFa_fields (w : BitVec 3) : packFa (w.getLsbD 2) (w.getLsbD 1) (w.getLsbD 0) = w := by
  simp only [packFa, ofBool_getLsbD, BitVec.extractLsb'_append_extractLsb'_eq_extractLsb']
  exact BitVec.extractLsb'_eq_self

theorem packRca_fields (w : BitVec 65) :
    packRca (w.extractLsb' 32 32) (w.extractLsb' 0 32) (w.getLsbD 64) = w := by
  simp only [packRca, ofBool_getLsbD, BitVec.extractLsb'_append_extractLsb'_eq_extractLsb']
  exact BitVec.extractLsb'_eq_self

theorem packEng_fields (w : BitVec 36) :
    packEng (w.extractLsb' 32 4) (w.extractLsb' 16 16) (w.extractLsb' 0 16) = w := by
  simp only [packEng, BitVec.extractLsb'_append_extractLsb'_eq_extractLsb']
  exact BitVec.extractLsb'_eq_self

theorem packP2_fields (w : BitVec 32) : packP2 (w.extractLsb' 16 16) (w.extractLsb' 0 16) = w := by
  simp only [packP2, BitVec.extractLsb'_append_extractLsb'_eq_extractLsb']
  exact BitVec.extractLsb'_eq_self

/-! The op select. -/

/-- The op select of an ENG operation (R84). -/
def EngOp.code : EngOp → BitVec 4
  | .add => 0x0#4
  | .sub => 0x1#4
  | .umul => 0x2#4
  | .udiv => 0x3#4
  | .smul => 0x4#4
  | .sdiv => 0x5#4

theorem encode_engInstr (op : EngOp) (a b : Half) : encode (engInstr op a b) = .eng (packEng op.code a b) := by
  cases op <;> rfl

theorem decode_packEng_code (op : EngOp) (a b : Half) :
    decode (.eng (packEng op.code a b)) = .ok (engInstr op a b) := by
  simp only [decode, decodeEng, packEng_op, packEng_a, packEng_b]
  cases op <;> rfl

/-- The decoder reads nothing of the op select but its number (R85). -/
theorem decode_packEng {c : BitVec 4} {op : EngOp} (h : c.toNat = op.code.toNat) (a b : Half) :
    decode (.eng (packEng c a b)) = .ok (engInstr op a b) := by
  rw [BitVec.eq_of_toNat_eq h, decode_packEng_code]

theorem decode_packEng_reserved {c : BitVec 4} (h : 6 ≤ c.toNat) (a b : Half) :
    decode (.eng (packEng c a b)) = .error (.reservedOp c) := by
  obtain ⟨n, hn⟩ := Nat.exists_eq_add_of_le' h
  simp only [decode, decodeEng, packEng_op, hn]

/-- An op select names one of the six operations or is reserved (R84, R86). -/
theorem code_or_reserved (c : BitVec 4) : (∃ op : EngOp, c = op.code) ∨ 6 ≤ c.toNat := by
  have hc : c.toNat = 0 ∨ c.toNat = 1 ∨ c.toNat = 2 ∨ c.toNat = 3 ∨ c.toNat = 4 ∨ c.toNat = 5 ∨ 6 ≤ c.toNat := by omega
  rcases hc with h | h | h | h | h | h | h
  · exact .inl ⟨.add, BitVec.eq_of_toNat_eq h⟩
  · exact .inl ⟨.sub, BitVec.eq_of_toNat_eq h⟩
  · exact .inl ⟨.umul, BitVec.eq_of_toNat_eq h⟩
  · exact .inl ⟨.udiv, BitVec.eq_of_toNat_eq h⟩
  · exact .inl ⟨.smul, BitVec.eq_of_toNat_eq h⟩
  · exact .inl ⟨.sdiv, BitVec.eq_of_toNat_eq h⟩
  · exact .inr h

theorem encode_of_decode_eng {w : BitVec 36} {i : Instr} (h : decode (.eng w) = .ok i) : encode i = .eng w := by
  rw [← packEng_fields w] at h ⊢
  rcases code_or_reserved (w.extractLsb' 32 4) with ⟨op, hop⟩ | hop
  · rw [hop, decode_packEng_code] at h
    cases h
    rw [encode_engInstr, hop]
  · rw [decode_packEng_reserved hop] at h
    cases h

/-- Settles O3: each port is read back from where it was packed, and the op select chooses the operation that was encoded. -/
theorem decodeOfEncodeIsTheTransaction : Obligations.DecodeOfEncodeIsTheTransaction := by
  intro i
  cases i with
  | fa a b c => rw [encode, decode, packFa_a, packFa_b, packFa_cIn]
  | rca32 a b c => rw [encode, decode, packRca_a, packRca_b, packRca_cIn]
  | p2mul x p => rw [encode, decode, packP2_x, packP2_p]
  | add a b => exact decode_packEng_code .add a b
  | sub a b => exact decode_packEng_code .sub a b
  | umul a b => exact decode_packEng_code .umul a b
  | udiv a b => exact decode_packEng_code .udiv a b
  | smul a b => exact decode_packEng_code .smul a b
  | sdiv a b => exact decode_packEng_code .sdiv a b

/-- Settles O2, from the number of each format's word. -/
theorem transactionWordsPackFields : Obligations.TransactionWordsPackFields :=
  ⟨packFa_toNat, packRca_toNat, packEng_toNat, packP2_toNat⟩

/-- Settles O4: packing the fields the decoder reads gives the word again. -/
theorem encodeOfDecodeIsTheWord : Obligations.EncodeOfDecodeIsTheWord := by
  intro w i h
  cases w with
  | eng w => exact encode_of_decode_eng h
  | fa w =>
    cases h
    rw [encode, packFa_fields]
  | rca w =>
    cases h
    rw [encode, packRca_fields]
  | p2 w =>
    cases h
    rw [encode, packP2_fields]

/-- Settles O5, by the operation each op select is the code of. -/
theorem opSelectChoosesTheOperation : Obligations.OpSelectChoosesTheOperation := by
  intro c a b
  exact ⟨fun h => decode_packEng (op := .add) h a b, fun h => decode_packEng (op := .sub) h a b,
    fun h => decode_packEng (op := .umul) h a b, fun h => decode_packEng (op := .udiv) h a b,
    fun h => decode_packEng (op := .smul) h a b, fun h => decode_packEng (op := .sdiv) h a b,
    fun h => decode_packEng_reserved h a b⟩

/-- Settles O1: each word is evaluated. -/
theorem writtenOutWordsDecode : Obligations.WrittenOutWordsDecode := by
  unfold Obligations.WrittenOutWordsDecode
  decide

end Sys2Proof.Machine
end

section
/-! A transaction statement in the host program: what the step leaves where it completes and where it is faulted (R235, R270). -/

namespace Sys2Proof.Machine

theorem bankGet_bankDrop {α : Type} (j k : Nat) (b : Bank α) :
    bankGet j (bankDrop k b) = if j = k then none else bankGet j b := by
  split
  · next h => rw [h, bankGet_bankDrop_same]
  · next h => exact bankGet_bankDrop_other h b

/-- Where the next statement is a transaction, the step attempts it. -/
theorem step_transact {s : State} {k : Nat} {d : Drive} (h : fetch s = some (.transact k d)) :
    step s = runTransaction k d s := by
  rw [step, h]
  rfl

theorem step_of_attempt_next {s t : State} {k : Nat} {d : Drive} (hf : fetch s = some (.transact k d))
    (ha : attempt k d s = .next t) : step s = .next (captures k d t).advance := by
  rw [step_transact hf, runTransaction, ha]

theorem step_of_attempt_fault {s : State} {k : Nat} {d : Drive} {f : Fault} (hf : fetch s = some (.transact k d))
    (ha : attempt k d s = .fault f) : step s = .next (noRecord d ((s.select k).record f)).advance := by
  rw [step_transact hf, runTransaction, ha]

theorem attempt_of_decode {s : State} {k : Nat} {d : Drive} {i : Instr} (h : decode (driveWord s.hvars d) = .ok i) :
    attempt k d s = exec i (s.select k) := by
  rw [attempt, h]

theorem attempt_of_reserved {s : State} {k : Nat} {d : Drive} {op : BitVec 4}
    (h : decode (driveWord s.hvars d) = .error (.reservedOp op)) : attempt k d s = .fault (.reservedOp op) := by
  rw [attempt, h]
  rfl

theorem captures_of_none {d : Drive} (hfa : ∀ a b c caps, d = .fa a b c caps → caps = [])
    (heng : ∀ o a b caps, d = .eng o a b caps → caps = []) (k : Nat) (s : State) : captures k d s = s := by
  cases d with
  | fa a b c caps => rw [hfa a b c caps rfl, captures, captureFa]
  | rca32 a b c => rfl
  | eng o a b caps => rw [heng o a b caps rfl, captures, captureEng]
  | p2mul x p => rfl

/-- A transaction that completes leaves the host's position to the host. -/
theorem exec_hpc {i : Instr} {s t : State} (h : exec i s = .next t) : t.hpc = s.hpc := by
  rcases exec_cases h with ⟨p, rfl⟩ | ⟨p, rfl⟩ | ⟨p, rfl⟩ | ⟨p, rfl⟩ <;> rfl

/-- The addressed instance of a block shows no output. -/
def State.drop (s : State) : Format → State
  | .fa => s.dropFa
  | .rca => s.dropRca
  | .eng => s.dropEng
  | .p2 => s.dropP2

/-- A faulted transaction drops the addressed instance of the driven block; else it changes host variables and the count of free
values. -/
theorem noRecord_drop (d : Drive) (driven : Vector Half 16) (s : State) :
    ∃ hv n, noRecord d s = { s.drop (driveWord driven d).format with hvars := hv, draws := n } := by
  cases d with
  | eng o a b caps => exact looseEng_cases caps s.dropEng
  | fa a b c caps => exact ⟨s.hvars, s.draws, rfl⟩
  | rca32 a b c => exact ⟨s.hvars, s.draws, rfl⟩
  | p2mul x p => exact ⟨s.hvars, s.draws, rfl⟩

/-- A drop behind the recorded fault is all a fault leaves but for the host variables (R232, R233, R235, R238). -/
theorem faultRecorded_drop (block : Format) (k : Nat) (f : Fault) (s : State) (hv : Vector Half 16) (n : Nat) :
    FaultRecorded block k f s { ((s.select k).record f).drop block with hvars := hv, draws := n }.advance := by
  cases block <;>
    simp [FaultRecorded, State.drop, State.faAt, State.rcaAt, State.engAt, State.p2At, bankGet_bankDrop]

theorem faultRecorded_noRecord (k : Nat) (d : Drive) (f : Fault) (s : State) :
    FaultRecorded (driveWord s.hvars d).format k f s (noRecord d ((s.select k).record f)).advance := by
  obtain ⟨hv, n, h⟩ := noRecord_drop d s.hvars ((s.select k).record f)
  rw [h]
  exact faultRecorded_drop _ k f s hv n

/-- The captures of a faulted transaction write the variables they name, and no other. -/
theorem looseEng_hvars {caps : List (EngField × HVar)} {h : HVar} (hne : ∀ c ∈ caps, c.2 ≠ h) (s : State) :
    (looseEng caps s).hvars[h] = s.hvars[h] := by
  induction caps generalizing s with
  | nil => rfl
  | cons c rest ih =>
    obtain ⟨hc, hrest⟩ := List.forall_mem_cons.1 hne
    rw [looseEng, ih hrest, State.setFree_hvars]
    exact Vector.getElem_set_ne _ _ (Fin.val_ne_of_ne hc)

theorem noRecord_hvars {d : Drive} {h : HVar} (hne : ∀ o a b caps, d = .eng o a b caps → ∀ c ∈ caps, c.2 ≠ h)
    (s : State) : (noRecord d s).hvars[h] = s.hvars[h] := by
  cases d with
  | eng o a b caps => exact looseEng_hvars (hne o a b caps rfl) s.dropEng
  | fa a b c caps => rfl
  | rca32 a b c => rfl
  | p2mul x p => rfl

/-- Settles O50: the attempt decides whether the step captures or records, and a fault drops one instance. -/
theorem stepRunsTheDecodedTransaction : Obligations.StepRunsTheDecodedTransaction := by
  intro s k d hf
  refine ⟨fun i t hd ht => ?_, fun f hfault => ?_⟩
  · have hstep := step_of_attempt_next hf ((attempt_of_decode hd).trans ht)
    refine ⟨hstep, fun hfa heng => ?_⟩
    rw [hstep, captures_of_none hfa heng, State.advance, State.goTo, exec_hpc ht, State.select_hpc]
  · have ha : attempt k d s = .fault f := by
      rcases hfault with ⟨i, hd, hi⟩ | ⟨op, hd, rfl⟩
      · exact (attempt_of_decode hd).trans hi
      · exact attempt_of_reserved hd
    exact ⟨_, step_of_attempt_fault hf ha, faultRecorded_noRecord k d f s, fun h hne => noRecord_hvars hne _⟩

/-! The transaction the host places (log entry 9). -/

theorem fetch_placeStmt (s : State) (st : Stmt) : fetch (placeStmt s st) = some st :=
  placeAt_get st s.hpc s.prog

theorem srcBit_lit_extract {n : Nat} (w : BitVec n) (i : Nat) (hv : Vector Half 16) :
    srcBit (.lit (w.extractLsb' i 1)) hv = w.getLsbD i := by
  simp [srcBit]

/-- A word's literals drive that word. -/
theorem driveWord_driveOfWord (w : TxnWord) (hv : Vector Half 16) : driveWord hv (driveOfWord w) = w := by
  cases w with
  | fa w => simp only [driveOfWord, driveWord, srcBit_lit_extract, packFa_fields]
  | rca w => simp only [driveOfWord, driveWord, srcBit_lit_extract, srcValue_lit, packRca_fields]
  | eng w => simp only [driveOfWord, driveWord, srcValue_lit, packEng_fields]
  | p2 w => simp only [driveOfWord, driveWord, srcValue_lit, packP2_fields]

theorem captures_driveOfWord (k : Nat) (w : TxnWord) (s : State) : captures k (driveOfWord w) s = s := by
  cases w <;> rfl

theorem driveOfWord_no_eng_captures {w : TxnWord} {o : BitVec 4} {a b : Src 16} {caps : List (EngField × HVar)}
    (h : driveOfWord w = .eng o a b caps) : caps = [] := by
  cases w <;> cases h
  rfl

/-- A table word that decodes stands for a transaction word, which `withFetchWord` places. -/
theorem decodeTableWord_some {nbits w : Nat} {i : Instr} (h : decodeTableWord nbits w = some i) :
    ∃ tw, decode tw = .ok i ∧ ∀ s : State, s.withFetchWord nbits w = placeStmt s (.transact 0 (driveOfWord tw)) := by
  obtain ⟨tw, htw, hi⟩ := Option.bind_eq_some_iff.1 h
  refine ⟨tw, ?_, fun s => by rw [State.withFetchWord, htw]⟩
  cases hd : decode tw with
  | ok j => rw [hd] at hi; cases hi; rfl
  | error e => rw [hd] at hi; cases hi

/-- Settles O54: the placed statement is the next one and drives the word itself, so O50 says what its step does. -/
theorem placedTransactionRunsNext : Obligations.PlacedTransactionRunsNext := by
  intro s nbits w i h
  obtain ⟨tw, hd, hplace⟩ := decodeTableWord_some h
  rw [hplace]
  set p := placeStmt s (.transact 0 (driveOfWord tw))
  have hword : driveWord p.hvars (driveOfWord tw) = tw := driveWord_driveOfWord tw p.hvars
  obtain ⟨hnext, hfault⟩ := stepRunsTheDecodedTransaction p 0 (driveOfWord tw) (fetch_placeStmt s _)
  rw [hword] at hnext hfault
  refine ⟨fun t ht => ?_, fun f hf => ?_⟩
  · rw [(hnext i t hd ht).1, captures_driveOfWord]
  · obtain ⟨t, hstep, hrec, hvars⟩ := hfault f (.inl ⟨i, hd, hf⟩)
    refine ⟨t, hstep, by rwa [encodeOfDecodeIsTheWord tw i hd], Vector.ext fun n hn => ?_⟩
    refine hvars ⟨n, hn⟩ fun o a b caps hcaps => ?_
    rw [driveOfWord_no_eng_captures hcaps]
    exact List.forall_mem_nil _

end Sys2Proof.Machine
end

section
/-! The pseudo-instructions (R92). -/

namespace Sys2Proof.Machine

/-- An ENG operation whose law gives a record completes with it. -/
theorem exec_engInstr_of_law {op : EngOp} {a b : Half} {s : State} {out : WideResult}
    (h : engLaw s.hasSignedMulDiv op a b = some out) :
    exec (engInstr op a b) s = .next (s.putEng { op := op, a := a, b := b, out := out }) :=
  exec_engInstr_next_iff.2 ⟨out, h, rfl⟩

/-- The shift operand of SHL and SHRU as the table writes it (R92). -/
theorem twoPow_eq_ofNat (k : Nat) : BitVec.twoPow 16 k = BitVec.ofNat 16 (2 ^ k) :=
  BitVec.eq_of_toNat_eq (by rw [BitVec.toNat_twoPow, BitVec.toNat_ofNat])

theorem toNat_ofNat_two_pow (k : Fin 16) : (BitVec.ofNat 16 (2 ^ k.val)).toNat = 2 ^ k.val := by
  rw [← twoPow_eq_ofNat, BitVec.toNat_twoPow_of_lt k.isLt]

theorem engLaw_udiv_two_pow (h : Bool) (a : Half) (k : Fin 16) :
    engLaw h .udiv a (BitVec.ofNat 16 (2 ^ k.val)) = some (udivLaw a (BitVec.ofNat 16 (2 ^ k.val))) := by
  have hb := toNat_ofNat_two_pow k
  have hpow : PowerOfTwo (BitVec.ofNat 16 (2 ^ k.val)) := ⟨k, k.isLt, hb⟩
  have hne : (BitVec.ofNat 16 (2 ^ k.val)).toNat ≠ 0 := by rw [hb]; positivity
  rw [engLaw, if_neg hne, if_pos hpow]

theorem umulLaw_two_pow_result (a : Half) (k : Fin 16) :
    (umulLaw a (BitVec.ofNat 16 (2 ^ k.val))).result = some (a <<< k.val) := by
  rw [umulLaw, toNat_ofNat_two_pow]
  refine congrArg some (BitVec.eq_of_toNat_eq ?_)
  rw [BitVec.toNat_ofNat, Nat.mod_mod, BitVec.toNat_shiftLeft, Nat.shiftLeft_eq]

theorem udivLaw_two_pow_result (a : Half) (k : Fin 16) :
    (udivLaw a (BitVec.ofNat 16 (2 ^ k.val))).result = some (a >>> k.val) := by
  rw [udivLaw, toNat_ofNat_two_pow]
  refine congrArg some (BitVec.eq_of_toNat_eq ?_)
  rw [BitVec.toNat_ofNat, BitVec.toNat_ushiftRight, Nat.shiftRight_eq_div_pow,
    Nat.mod_eq_of_lt (lt_of_le_of_lt (Nat.div_le_self ..) a.isLt)]

/-- Settles O55: each expansion completes with the record of its operation's law, and the fields are read off. -/
theorem pseudoInstructions : Obligations.PseudoInstructions := by
  intro a b k s
  refine ⟨⟨_, exec_engInstr_of_law (op := .sub) rfl, ?_⟩, exec_engInstr_of_law (op := .add) rfl,
    exec_engInstr_of_law (op := .sub) rfl, ⟨_, ?_, umulLaw_two_pow_result a k, ?_⟩,
    ⟨_, ?_, udivLaw_two_pow_result a k, ?_⟩, ⟨_, exec_engInstr_of_law (op := .sub) rfl, rfl⟩⟩
  · rw [subLaw, BitVec.toNat_zero, Int.ofNat_zero, Int.zero_sub]
  · rw [expand, twoPow_eq_ofNat]
    exact exec_engInstr_of_law (op := .umul) rfl
  · rw [umulLaw, toNat_ofNat_two_pow]
  · rw [expand, twoPow_eq_ofNat]
    exact exec_engInstr_of_law (op := .udiv) (engLaw_udiv_two_pow _ a k)
  · rw [udivLaw, toNat_ofNat_two_pow]

end Sys2Proof.Machine
end

section
/-! FA and RCA32: the transactions complete with the full adder's outputs and with the sum modulo 2^32 (spec 40 R120 to R128). -/

namespace Sys2Proof.Machine

/-- FA completes by putting the full adder's outputs on the addressed FA (R120). -/
theorem exec_fa (a b c : Bool) (s : State) :
    exec (.fa a b c) s =
      .next (s.putFa { a := a, b := b, cIn := c, sum := (fullAdd a b c).1, carryOut := (fullAdd a b c).2 }) := rfl

/-- RCA32 completes by putting the chain's sum on the addressed RCA32 (R125). -/
theorem exec_rca32 (a b : Wide) (c : Bool) (s : State) :
    exec (.rca32 a b c) s = .next (s.putRca { a := a, b := b, cIn := c, sum := rca32 a b c }) := rfl

/-- The addressed FA shows the ports just put. -/
@[simp] theorem State.faAt_putFa (s : State) (p : FaPorts) : (s.putFa p).faAt s.sel = some p :=
  bankGet_bankPut_same _ _ _

/-- The chain is the addition of the operands as numbers, wrapped to 32 bits (R126). -/
theorem rca32_eq_ofNat (a b : Wide) (c : Bool) : rca32 a b c = BitVec.ofNat 32 (a.toNat + b.toNat + c.toNat) :=
  BitVec.eq_of_toNat_eq (by rw [rca32_toNat, BitVec.toNat_ofNat])

/-- Settles O9: the chain's closed form, put into what RCA32 completes with. -/
theorem rippleChainIsModularAddition : Obligations.RippleChainIsModularAddition := by
  intro a b c s
  refine ⟨rca32_eq_ofNat a b c, ?_⟩
  rw [exec_rca32, rca32_eq_ofNat]

/-- Settles O10: the sum in the chain's loop invariant. -/
theorem ripplePartialSums : Obligations.RipplePartialSums := by
  intro a b c n hn
  obtain ⟨-, hsum⟩ := ripple_invariant a b c n hn
  exact hsum

/-- Settles O6: the full adder's outputs are the two formulas of R120. -/
theorem faExecutes : Obligations.FaExecutes := by
  intro a b c s
  exact ⟨rfl, exec_fa a b c s⟩

/-- Settles O7: each row's word packs its inputs and its outputs are the full adder's, so it decodes to FA on them and runs to them. -/
theorem faTruthTable : Obligations.FaTruthTable := by
  intro s row hrow
  have hfacts : row.1 = packFa row.2.1 row.2.2.1 row.2.2.2.1 ∧
      fullAdd row.2.1 row.2.2.1 row.2.2.2.1 = row.2.2.2.2 := by
    fin_cases hrow <;> decide
  obtain ⟨hword, hout⟩ := hfacts
  constructor
  · rw [hword]
    exact decodeOfEncodeIsTheTransaction (.fa _ _ _)
  · rw [exec_fa, hout]

/-- Settles O8: the addressed FA shows the full adder's outputs, which count its inputs. -/
theorem faArithmetic : Obligations.FaArithmetic := by
  intro a b c s
  exact ⟨_, _, exec_fa a b c s, State.faAt_putFa _ _, fullAdd_count a b c⟩

end Sys2Proof.Machine
end

section
/-! ADD and SUB: what the transactions complete with, and the forms of their flags and results (spec 41 R150 to R162). -/

namespace Sys2Proof.Machine

/-- ADD completes with the record of its law in every state (R150). -/
theorem exec_add (a b : Half) (s : State) :
    exec (.add a b) s = .next (s.putEng { op := .add, a := a, b := b, out := addLaw a b }) :=
  exec_engInstr_of_law (op := .add) rfl

/-- SUB completes with the record of its law in every state (R158). -/
theorem exec_sub (a b : Half) (s : State) :
    exec (.sub a b) s = .next (s.putEng { op := .sub, a := a, b := b, out := subLaw a b }) :=
  exec_engInstr_of_law (op := .sub) rfl

theorem addLaw_result (a b : Half) : (addLaw a b).result = some (a + b) := by
  rw [addLaw, BitVec.add_def]

theorem subLaw_result (a b : Half) : (subLaw a b).result = some (a - b) := by
  rw [subLaw, Int.sub_eq_add_neg, BitVec.ofInt_add, BitVec.ofInt_neg, BitVec.ofInt_natCast, BitVec.ofInt_natCast,
    BitVec.ofNat_toNat, BitVec.ofNat_toNat, BitVec.setWidth_eq, BitVec.setWidth_eq, BitVec.sub_eq_add_neg]

/-- No field of ADD's record tells the operands apart (R153). -/
theorem addLaw_comm (a b : Half) : addLaw a b = addLaw b a := by
  rw [addLaw, addLaw, Nat.add_comm, Int.add_comm]

/-- The sum of two signed 16-bit values leaves the range where the carries into and out of the sign bit differ (R152). -/
theorem outsideSigned16_add_eq_carries (a b : Half) :
    decide (OutsideSigned16 (a.toInt + b.toInt)) =
      (decide (2 ^ 15 ≤ a.toNat % 2 ^ 15 + b.toNat % 2 ^ 15) != decide (2 ^ 16 ≤ a.toNat + b.toNat)) := by
  have := a.isLt
  have := b.isLt
  rw [half_toInt, half_toInt, Bool.eq_iff_iff, bne_iff_ne, Ne, decide_eq_decide, decide_eq_true_eq, OutsideSigned16]
  split <;> split <;> omega

/-- The carry out of the sign bit is the majority of the operands' signs and the carry into it, which the sign of the sum gives
away where the operands' signs differ. -/
theorem carryOut_eq_signs (a b : Half) :
    decide (2 ^ 16 ≤ a.toNat + b.toNat) = (a.msb && b.msb || (a.msb || b.msb) && !(a + b).msb) := by
  have := a.isLt
  have := b.isLt
  rw [Bool.eq_iff_iff]
  simp only [BitVec.msb_eq_decide, BitVec.toNat_add, Bool.or_eq_true, Bool.and_eq_true, Bool.not_eq_true',
    decide_eq_true_eq, decide_eq_false_iff_not]
  omega

/-- ADD's signed overflow by the signs of operands and result (R152). -/
theorem addOut_signedOverflow_eq_signs (a b : Half) :
    (addOut a b).signedOverflow = some (a.msb == b.msb && (a + b).msb != a.msb) := by
  have hsum : (a + b).getLsbD 15 = (addSum a b).getLsbD 15 := by
    rw [BitVec.add_def, ← addSum_low]
    simp
  simp only [BitVec.msb_eq_getLsbD_last, hsum, addOut, addSignedOverflow]

/-- Settles O11: the transaction of the operation ADD, with the record of its law. -/
theorem addExecutes : Obligations.AddExecutes := by
  intro a b s
  exact ⟨encode_engInstr .add a b, exec_add a b s⟩

/-- Settles O12: all forms are read off the sum as a number below 2^17. -/
theorem addUnsignedOverflowForms : Obligations.AddUnsignedOverflowForms := by
  intro a b
  have := a.isLt
  have := b.isLt
  have hflag : (addOut a b).unsignedOverflow = some (decide (2 ^ 16 ≤ a.toNat + b.toNat)) := by
    rw [addOut_eq_addLaw, addLaw]
  refine ⟨rfl, ?_, ?_, hflag⟩
  · apply BitVec.eq_of_toNat_eq
    rw [BitVec.extractLsb'_toNat, addSum_toNat, Nat.shiftRight_eq_div_pow, BitVec.toNat_zero]
    omega
  · rw [hflag, ← BitVec.testBit_toNat, addSum_toNat, Nat.testBit_eq_decide_div_mod_eq, Option.some_inj, decide_eq_decide]
    omega

/-- Settles O13: the flag is defined by the signs, and as ADD's law gives it, it is the comparison of the two carries. -/
theorem addSignedOverflowForms : Obligations.AddSignedOverflowForms := by
  intro a b
  have hlaw : (addOut a b).signedOverflow = some (decide (OutsideSigned16 (a.toInt + b.toInt))) := by
    rw [addOut_eq_addLaw, addLaw]
  exact ⟨addOut_signedOverflow_eq_signs a b, by rw [hlaw, outsideSigned16_add_eq_carries], hlaw⟩

/-- Settles O14: both orders complete with one record. -/
theorem addResultAndCommutes : Obligations.AddResultAndCommutes := by
  intro a b s
  refine ⟨addLaw a b, exec_add a b s, ?_, ?_⟩
  · rw [exec_add, addLaw_comm]
  · rw [addLaw_result, ← BitVec.toNat_add, BitVec.ofNat_toNat, BitVec.setWidth_eq]

/-- Settles O15: both flags are functions of the three signs, evaluated in each row of the table. -/
theorem addFlagsBySign : Obligations.AddFlagsBySign := by
  intro a b s
  have hsigned : (addLaw a b).signedOverflow = some (a.msb == b.msb && (a + b).msb != a.msb) := by
    rw [← addOut_eq_addLaw, addOut_signedOverflow_eq_signs]
  have hunsigned : (addLaw a b).unsignedOverflow = some (a.msb && b.msb || (a.msb || b.msb) && !(a + b).msb) := by
    rw [addLaw, carryOut_eq_signs]
  refine ⟨_, _, _, _, exec_add a b s, addLaw_result a b, hunsigned, hsigned, ?_, ?_, ?_, ?_⟩
  all_goals
    rintro ⟨ha, hb⟩
    simp [ha, hb]

/-- Settles O16: the record of SUB's law is the one computed through the inner ADD, whose signed overflow it takes. -/
theorem subExecutes : Obligations.SubExecutes := by
  intro a b s
  refine ⟨encode_engInstr .sub a b, exec_sub a b s, ?_⟩
  rw [← subOut_eq_subLaw, subOut]

/-- Settles O17: the negated subtrahend is the two's complement. -/
theorem subNegatesTheSubtrahend : Obligations.SubNegatesTheSubtrahend := by
  refine ⟨fun b _ => ?_, ?_, ?_⟩
  · rw [subNegate_eq_neg, BitVec.toNat_neg]
  · rw [subNegate_eq_neg, BitVec.neg_zero]
  · rw [subNegate_eq_neg]
    decide

/-- The carry of the inner ADD of SUB: the sum of the minuend and the negated subtrahend needs more than 16 bits. -/
theorem addOut_subNegate_unsignedOverflow (a b : Half) :
    (addOut a (subNegate b)).unsignedOverflow = some (decide (2 ^ 16 ≤ a.toNat + (-b).toNat)) := by
  rw [addOut_eq_addLaw, subNegate_eq_neg, addLaw]

/-- Settles O18: a nonzero subtrahend `b` is negated to `2^16 - b`, and 0 to 0. -/
theorem subBorrowIsNotTheInnerCarry : Obligations.SubBorrowIsNotTheInnerCarry := by
  intro a b
  have := a.isLt
  refine ⟨rfl, fun hb => ?_, ?_⟩
  · have hpos : b.toNat ≠ 0 := fun h => hb (BitVec.eq_of_toNat_eq h)
    rw [addOut_subNegate_unsignedOverflow, BitVec.toNat_neg, Option.some_inj, decide_eq_decide]
    omega
  · rw [addOut_subNegate_unsignedOverflow, BitVec.neg_zero, BitVec.toNat_zero, Option.some_inj, decide_eq_false_iff_not]
    omega

theorem subOut_signedOverflow_of_ne (a : Half) {b : Half} (hb : b ≠ 0x8000#16) :
    (subOut a b).signedOverflow = some (decide (OutsideSigned16 (a.toInt - b.toInt))) := by
  rw [subOut_eq_subLaw, subLaw, if_neg hb]

theorem subOut_signedOverflow_8000 (a : Half) : (subOut a 0x8000#16).signedOverflow = some a.msb := by
  rw [subOut_eq_subLaw, subLaw, if_pos rfl, BitVec.msb_eq_getLsbD_last]

/-- The mathematical difference from 0x8000 leaves the signed range just where the minuend is not negative (R161). -/
theorem msb_eq_not_outsideSigned16 (a : Half) : a.msb = !decide (OutsideSigned16 (a.toInt + 32768)) := by
  have := a.isLt
  rw [BitVec.msb_eq_decide, half_toInt, ← decide_not, decide_eq_decide, OutsideSigned16]
  split <;> omega

/-- Settles O19: SUB's law names the subtrahend 0x8000 apart, and there the sign of the minuend is the complement. -/
theorem subSignedOverflowAtEverySubtrahend : Obligations.SubSignedOverflowAtEverySubtrahend := by
  intro a b
  refine ⟨rfl, subOut_signedOverflow_of_ne a, subOut_signedOverflow_8000 a, ?_⟩
  rw [subOut_signedOverflow_8000, msb_eq_not_outsideSigned16]

/-- SUB by 0 gives the minuend, and neither flag (R162). -/
theorem subLaw_zero (a : Half) :
    (subLaw a 0#16).result = some a ∧ (subLaw a 0#16).unsignedOverflow = some false ∧
      (subLaw a 0#16).signedOverflow = some false := by
  have hrange : ¬ OutsideSigned16 a.toInt := by
    have := a.toInt_lt
    have := a.le_toInt
    rw [OutsideSigned16]
    omega
  refine ⟨by rw [subLaw_result, BitVec.sub_zero], by simp [subLaw], by simp [subLaw, hrange]⟩

/-- Settles O20: the two transactions put `a - b` and then `a - b + b` on the addressed ENG. -/
theorem subLaws : Obligations.SubLaws := by
  intro a b s
  refine ⟨⟨_, exec_sub a 0#16 s, subLaw_zero a⟩, ⟨_, _, _, _, a - b, exec_sub a b s, State.engAt_putEng _ _,
    subLaw_result a b, ?_, exec_add (a - b) b _, State.engAt_putEng _ _, ?_⟩⟩
  · exact Option.some.inj (subLaw_result a b).symm
  · rw [addLaw_result, BitVec.sub_add_cancel]

end Sys2Proof.Machine
end

section
/-! UMUL, P2MUL, UDIV, SMUL and SDIV: what the transactions answer, and the laws of their products, quotients and remainders (spec
42 R185 to R210). -/

namespace Sys2Proof.Machine

/-! What each transaction answers. -/

/-- The addressed P2MUL shows the ports just put. -/
@[simp] theorem State.p2At_putP2 (s : State) (p : P2Ports) : (s.putP2 p).p2At s.sel = some p :=
  bankGet_bankPut_same _ _ _

theorem PowerOfTwo.toNat_pos {p : Half} (h : PowerOfTwo p) : 0 < p.toNat := by
  obtain ⟨k, -, hp⟩ := h
  exact hp ▸ Nat.two_pow_pos k

theorem PowerOfTwo.ne_zero {p : Half} (h : PowerOfTwo p) : p ≠ 0#16 := by
  rintro rfl
  exact h.toNat_pos.ne rfl

theorem PositivePowerOfTwo.powerOfTwo {b : Half} (h : PositivePowerOfTwo b) : PowerOfTwo b := by
  obtain ⟨k, hk, hb⟩ := h
  exact ⟨k, by omega, hb⟩

/-- UMUL completes with the record of its law in every state (R185). -/
theorem exec_umul (a b : Half) (s : State) :
    exec (.umul a b) s = .next (s.putEng { op := .umul, a := a, b := b, out := umulLaw a b }) :=
  exec_engInstr_of_law (op := .umul) rfl

/-- P2MUL shifts by the exponent of a power of two, and raises on every other operand (R190, R191). -/
theorem exec_p2mul (x p : Half) (s : State) :
    exec (.p2mul x p) s =
      if PowerOfTwo p then .next (s.putP2 { x := x, p := p, y := BitVec.ofNat 32 (x.toNat * p.toNat) })
      else .fault (.preconditionViolated .p2mul p) := by
  simp only [exec, execP2mul, isPow2_iff]
  split
  · next hp =>
    obtain ⟨k, hk, hpk⟩ := hp
    rw [log2_of_pow hk hpk, hpk, ← zext32_shiftLeft_toNat x hk, BitVec.ofNat_toNat, BitVec.setWidth_eq]
  · rfl

/-- UDIV completes by 0 and by the powers of two, and raises by every other divisor (R196, R199). -/
theorem exec_udiv (a b : Half) (s : State) :
    exec (.udiv a b) s =
      if b = 0#16 then .next (s.putEng { op := .udiv, a := a, b := b, out := zeroDivideLaw })
      else if PowerOfTwo b then .next (s.putEng { op := .udiv, a := a, b := b, out := udivLaw a b })
      else .fault (.preconditionViolated (.eng .udiv) b) := by
  simp only [exec, execUdiv, isPow2_iff]
  split
  · rfl
  · split
    · next hb => rw [quotientOut_udiv a hb]
    · rfl

theorem exec_udiv_of_powerOfTwo (a : Half) {b : Half} (h : PowerOfTwo b) (s : State) :
    exec (.udiv a b) s = .next (s.putEng { op := .udiv, a := a, b := b, out := udivLaw a b }) := by
  rw [exec_udiv, if_neg h.ne_zero, if_pos h]

/-- SMUL completes in a build with the option, and is reserved in the other (R203, R87). -/
theorem exec_smul (a b : Half) (s : State) :
    exec (.smul a b) s =
      if s.hasSignedMulDiv then .next (s.putEng { op := .smul, a := a, b := b, out := smulLaw a b })
      else .fault (.reservedOp 0x4#4) := by
  rw [exec, execSmul, productOut_smulProduct, raise]

/-- SDIV completes by 0 and by the positive powers of two and raises by every other divisor in a build with the option, and is
reserved in the other (R208, R87). -/
theorem exec_sdiv (a b : Half) (s : State) :
    exec (.sdiv a b) s =
      if s.hasSignedMulDiv then
        if b = 0#16 then .next (s.putEng { op := .sdiv, a := a, b := b, out := zeroDivideLaw })
        else if PositivePowerOfTwo b then .next (s.putEng { op := .sdiv, a := a, b := b, out := sdivLaw a b })
        else .fault (.preconditionViolated (.eng .sdiv) b)
      else .fault (.reservedOp 0x5#4) := by
  simp only [exec, execSdiv, isPosPow2_iff]
  split
  · split
    · rfl
    · split
      · next hb => rw [sdivOut_eq_sdivLaw a hb]
      · rfl
  · rfl

theorem exec_sdiv_of_positivePowerOfTwo (a : Half) {b : Half} (h : PositivePowerOfTwo b) {s : State}
    (hs : s.hasSignedMulDiv = true) :
    exec (.sdiv a b) s = .next (s.putEng { op := .sdiv, a := a, b := b, out := sdivLaw a b }) := by
  rw [exec_sdiv, if_pos hs, if_neg h.powerOfTwo.ne_zero, if_pos h]

/-! Products. -/

/-- The whole loop of UMUL gives the exact product (R186). -/
theorem umulAcc_16_toNat (a b : Half) : (umulAcc a b 16).toNat = a.toNat * b.toNat := by
  rw [umulAcc_toNat a b 16 le_rfl, Nat.mod_eq_of_lt b.isLt]

theorem umulAcc_16_eq_ofNat (a b : Half) : umulAcc a b 16 = BitVec.ofNat 32 (a.toNat * b.toNat) := by
  rw [← umulAcc_16_toNat, BitVec.ofNat_toNat, BitVec.setWidth_eq]

/-- UMUL's record holds the halves of the product that P2MUL shows whole (R193). -/
theorem umulLaw_eq_productOut (a b : Half) : umulLaw a b = productOut (BitVec.ofNat 32 (a.toNat * b.toNat)) := by
  rw [← umulAcc_16_eq_ofNat, productOut_umulAcc]

/-- The product with a power of two needs at most 31 bits (R192). -/
theorem toNat_mul_two_pow_lt (x : Half) {k : Nat} (hk : k < 16) : x.toNat * 2 ^ k < 2 ^ 31 :=
  calc x.toNat * 2 ^ k < 2 ^ 16 * 2 ^ 15 :=
        Nat.mul_lt_mul_of_lt_of_le x.isLt (Nat.pow_le_pow_right (by norm_num) (by omega)) (by norm_num)
    _ = 2 ^ 31 := by norm_num

theorem umulLaw_result (a b : Half) : (umulLaw a b).result = some (a * b) := by
  refine congrArg some (BitVec.eq_of_toNat_eq ?_)
  rw [BitVec.toNat_ofNat, Nat.mod_mod, BitVec.toNat_mul]

theorem smulLaw_result (a b : Half) : (smulLaw a b).result = some (a * b) := by
  rw [smulLaw, BitVec.ofInt_mul, BitVec.ofInt_toInt, BitVec.ofInt_toInt]

/-- The range of a product of two signed 16-bit values (R204). -/
theorem toInt_mul_toInt_range (a b : Half) :
    -1073709056 ≤ a.toInt * b.toInt ∧ a.toInt * b.toInt ≤ 1073741824 := by
  have halo : -2 ^ 15 ≤ a.toInt := a.le_toInt
  have hahi : a.toInt < 2 ^ 15 := a.toInt_lt
  have hblo : -2 ^ 15 ≤ b.toInt := b.le_toInt
  have hbhi : b.toInt ≤ 2 ^ 15 - 1 := Int.le_sub_one_of_lt b.toInt_lt
  rcases le_total 0 a.toInt with ha | ha
  · have hlo := mul_le_mul_of_nonneg_left hblo ha
    have hhi := mul_le_mul_of_nonneg_left hbhi ha
    omega
  · have hlo := mul_le_mul_of_nonpos_left hbhi ha
    have hhi := mul_le_mul_of_nonpos_left hblo ha
    omega

/-- The 32-bit product of SMUL is exact (R204). -/
theorem toInt_smulProduct (a b : Half) : (smulProduct a b).toInt = a.toInt * b.toInt := by
  obtain ⟨hlo, hhi⟩ := toInt_mul_toInt_range a b
  exact BitVec.toInt_ofInt_eq_self (by norm_num) (by norm_num; omega) (by norm_num; omega)

/-- Settles O21: the transaction of the operation UMUL, with the record of its law. -/
theorem umulExecutes : Obligations.UmulExecutes := by
  intro a b s
  exact ⟨encode_engInstr .umul a b, exec_umul a b s⟩

/-- Settles O22: the loop's invariant, and the number of the word its halves are cut from. -/
theorem umulAccumulatorNeverWraps : Obligations.UmulAccumulatorNeverWraps := by
  intro a b
  refine ⟨umulAcc_toNat a b, _, _, rfl, rfl, ?_⟩
  rw [Nat.add_comm, ← packP2_toNat, packP2_fields, umulAcc_16_toNat]

/-- Settles O23, by whether the operand is a power of two. -/
theorem p2mulExecutes : Obligations.P2mulExecutes := by
  intro x p s
  refine ⟨rfl, fun k hk hp => ⟨?_, toNat_mul_two_pow_lt x hk⟩, fun hp => ?_⟩
  · rw [exec_p2mul, if_pos ⟨k, hk, hp⟩, hp]
  · rw [exec_p2mul, if_neg hp]

/-- Settles O24: P2MUL shows the product, and UMUL the record made of its halves. -/
theorem p2mulAgreesWithUmul : Obligations.P2mulAgreesWithUmul := by
  intro x p s hp
  refine ⟨_, _, _, _, (exec_p2mul x p s).trans (if_pos hp), State.p2At_putP2 _ _, ?_, exec_umul x p s,
    State.engAt_putEng _ _, ?_, ?_⟩
  · rw [← umulAcc_16_eq_ofNat, umulAcc_16_toNat]
  all_goals rw [umulLaw_eq_productOut, productOut]

/-! Quotients and remainders. -/

theorem udivLaw_result (a b : Half) : (udivLaw a b).result = some (a / b) := by
  rw [udivLaw, BitVec.udiv_def]

theorem udivLaw_supplementalResult (a b : Half) : (udivLaw a b).supplementalResult = some (a % b) := by
  rw [udivLaw, BitVec.umod_def]

theorem sdivLaw_result (a b : Half) : (sdivLaw a b).result = some (a.sdiv b) := by
  refine congrArg some (BitVec.eq_of_toInt_eq ?_)
  rw [BitVec.toInt_ofInt, BitVec.toInt_sdiv]

theorem sdivLaw_supplementalResult (a b : Half) : (sdivLaw a b).supplementalResult = some (a.srem b) := by
  rw [sdivLaw, ← BitVec.toInt_srem, BitVec.ofInt_toInt]

/-- A power of two below the sign bit is the same number signed (R208). -/
theorem toInt_of_two_pow {b : Half} {k : Nat} (hk : k < 15) (hb : b.toNat = 2 ^ k) : b.toInt = (2 ^ k : Nat) := by
  have hlt : 2 ^ k < 2 ^ 15 := Nat.pow_lt_pow_right (by norm_num) hk
  rw [BitVec.toInt_eq_toNat_of_lt (by omega), hb]

theorem PositivePowerOfTwo.toInt_pos {b : Half} (h : PositivePowerOfTwo b) : 0 < b.toInt := by
  obtain ⟨k, hk, hb⟩ := h
  rw [toInt_of_two_pow hk hb]
  exact_mod_cast Nat.two_pow_pos k

/-- By a positive divisor the truncated quotient fits in 16 bits (R209). -/
theorem toInt_sdiv_of_pos (a : Half) {b : Half} (h : 0 < b.toInt) : (a.sdiv b).toInt = a.toInt.tdiv b.toInt := by
  refine BitVec.toInt_sdiv_of_ne_or_ne a b (.inr ?_)
  rintro rfl
  exact absurd h (by decide)

/-- The truncated remainder is 0 or has the sign of the dividend (R209). -/
theorem tmod_eq_zero_or_same_sign (x y : Int) :
    x.tmod y = 0 ∨ (0 < x.tmod y ∧ 0 < x) ∨ (x.tmod y < 0 ∧ x < 0) := by
  rcases lt_trichotomy x 0 with hx | rfl | hx
  · have hneg := Int.tmod_nonneg (a := -x) y (by omega)
    rw [Int.neg_tmod] at hneg
    omega
  · exact .inl (Int.zero_tmod y)
  · have hpos := Int.tmod_nonneg y hx.le
    omega

theorem abs_tmod_lt_of_pos (x : Int) {y : Int} (hy : 0 < y) : |x.tmod y| < y :=
  abs_lt.2 ⟨Int.lt_tmod_of_pos x hy, Int.tmod_lt_of_pos x hy⟩

theorem abs_tdiv_le_abs (x y : Int) : |x.tdiv y| ≤ |x| := by
  rw [Int.abs_eq_natAbs, Int.abs_eq_natAbs]
  exact_mod_cast Int.natAbs_tdiv_le_natAbs x y

/-- Only -32768 by 1 has the quotient -32768 among the 16-bit dividends (R209). -/
theorem eq_of_tdiv_eq_min {x y : Int} (hx : -32768 ≤ x) (hy : 0 < y) (hq : x.tdiv y = -32768) : x = -32768 ∧ y = 1 := by
  have hdiv := Int.tdiv_mul_add_tmod x y
  have hrem := Int.tmod_lt_of_pos x hy
  have hlow := Int.lt_tmod_of_pos x hy
  rw [hq] at hdiv
  omega

/-- The quotient rounded toward minus infinity is one less than the truncated one where it is negative and not exact (R210). -/
theorem ediv_eq_tdiv_sub_one {x y : Int} (hx : x < 0) (hy : 0 < y) (hr : x.tmod y ≠ 0) : x / y = x.tdiv y - 1 := by
  have hdvd : ¬ y ∣ x := fun h => hr (Int.tmod_eq_zero_of_dvd h)
  rw [Int.tdiv_eq_ediv, if_neg (by simp [hdvd, hx]), Int.sign_eq_one_of_pos hy]
  omega

/-- Settles O25, by the divisor. -/
theorem udivExecutes : Obligations.UdivExecutes := by
  intro a b s
  refine ⟨encode_engInstr .udiv a b, fun hb => ?_, fun hb => exec_udiv_of_powerOfTwo a hb s, fun h0 hb => ?_⟩
  · rw [exec_udiv, if_pos hb]
  · rw [exec_udiv, if_neg h0, if_neg hb]

/-- Settles O26: LOG2 of the divisor is its exponent. -/
theorem udivShiftsLogically : Obligations.UdivShiftsLogically := by
  intro a b s k hk hb
  have hpow : PowerOfTwo b := ⟨k, hk, hb⟩
  rw [exec_udiv_of_powerOfTwo a hpow, ← quotientOut_udiv a hpow, quotientOut, udivQuotient, log2_of_pow hk hb, udivRemainder]

/-- Settles O27: quotient and remainder are those of the operands as numbers. -/
theorem udivLaws : Obligations.UdivLaws := by
  intro d p s
  refine ⟨fun hp => ?_, _, _, (exec_udiv d 0#16 s).trans (if_pos rfl), State.engAt_putEng _ _, rfl⟩
  refine ⟨_, _, _, _, exec_udiv_of_powerOfTwo d hp s, State.engAt_putEng _ _, udivLaw_result d p,
    udivLaw_supplementalResult d p, ?_, ?_⟩
  · rw [BitVec.toNat_udiv, BitVec.toNat_umod, Nat.div_add_mod']
  · rw [BitVec.toNat_umod]
    exact Nat.mod_lt _ hp.toNat_pos

/-- Settles O28, by the build. -/
theorem smulExecutes : Obligations.SmulExecutes := by
  intro a b s
  refine ⟨encode_engInstr .smul a b, fun hs => ?_, fun hs => ?_⟩
  · rw [exec_smul, if_pos hs]
  · rw [exec_smul, hs, if_neg Bool.false_ne_true]

/-- Settles O29: the halves are cut from the 32-bit product, which is exact. -/
theorem smulProductIsExact : Obligations.SmulProductIsExact := by
  intro a b s hs
  have hlaw := productOut_smulProduct a b
  refine ⟨_, _, (smulProduct a b).extractLsb' 0 16, (smulProduct a b).extractLsb' 16 16,
    (exec_smul a b s).trans (if_pos hs), State.engAt_putEng _ _, ?_, ?_, ?_, toInt_mul_toInt_range a b⟩
  · rw [← hlaw, productOut]
  · rw [← hlaw, productOut]
  · rw [← packP2, packP2_fields, toInt_smulProduct]

/-- Settles O30: both low halves are the product of the operands modulo 2^16. -/
theorem smulLowHalfIsUmulLowHalf : Obligations.SmulLowHalfIsUmulLowHalf := by
  intro a b s hs
  refine ⟨_, _, _, _, (exec_smul a b s).trans (if_pos hs), State.engAt_putEng _ _, exec_umul a b s,
    State.engAt_putEng _ _, ?_⟩
  rw [smulLaw_result, umulLaw_result]

/-- Settles O31, by the build and the divisor. -/
theorem sdivExecutes : Obligations.SdivExecutes := by
  intro a b s
  refine ⟨encode_engInstr .sdiv a b, fun hs hb => ?_, fun hs hb => exec_sdiv_of_positivePowerOfTwo a hb hs,
    fun hs h0 hb => ?_, fun hs => ?_⟩
  · rw [exec_sdiv, if_pos hs, if_pos hb]
  · rw [exec_sdiv, if_pos hs, if_neg h0, if_neg hb]
  · rw [exec_sdiv, hs, if_neg Bool.false_ne_true]

/-- Settles O32: SDIV's fields are the truncated quotient and remainder as numbers, of which the laws hold. -/
theorem sdivLaws : Obligations.SdivLaws := by
  intro a b s hs hb
  have hpos := hb.toInt_pos
  refine ⟨_, _, _, _, exec_sdiv_of_positivePowerOfTwo a hb hs, State.engAt_putEng _ _, sdivLaw_result a b,
    sdivLaw_supplementalResult a b, ?_⟩
  rw [toInt_sdiv_of_pos a hpos, BitVec.toInt_srem]
  refine ⟨Int.tdiv_mul_add_tmod _ _, abs_tmod_lt_of_pos _ hpos, tmod_eq_zero_or_same_sign _ _, abs_tdiv_le_abs _ _,
    fun hq => ?_⟩
  obtain ⟨ha, hb1⟩ := eq_of_tdiv_eq_min a.le_toInt hpos hq
  exact ⟨BitVec.eq_of_toInt_eq ha, BitVec.eq_of_toInt_eq hb1⟩

/-- Settles O33: the arithmetic shift rounds toward minus infinity, SDIV toward zero. -/
theorem sdivIsNotAnArithmeticShift : Obligations.SdivIsNotAnArithmeticShift := by
  intro a b k s hs hk hb ha
  have hlegal : PositivePowerOfTwo b := ⟨k, hk, hb⟩
  refine ⟨_, _, _, _, exec_sdiv_of_positivePowerOfTwo a hlegal hs, State.engAt_putEng _ _, sdivLaw_result a b,
    sdivLaw_supplementalResult a b, fun hr => ?_⟩
  have hrem : a.toInt.tmod b.toInt ≠ 0 := fun h => hr (BitVec.eq_of_toInt_eq (by rw [BitVec.toInt_srem, h]; rfl))
  rw [BitVec.toInt_sshiftRight, Int.shiftRight_eq_div_pow, ← toInt_of_two_pow hk hb, toInt_sdiv_of_pos a hlegal.toInt_pos]
  exact ediv_eq_tdiv_sub_one ha hlegal.toInt_pos hrem

end Sys2Proof.Machine
end

section
/-! The model faults (R231 to R236): exactly when each transaction raises, and which fault. -/

namespace Sys2Proof.Machine

/-- The positive powers of two are the powers of two with bit 15 clear (R208). -/
theorem positivePowerOfTwo_iff (b : Half) : PositivePowerOfTwo b ↔ b.msb = false ∧ PowerOfTwo b := by
  rw [← isPosPow2_iff, ← isPow2_iff, isPosPow2, Bool.and_eq_true, Bool.not_eq_true', BitVec.msb_eq_getLsbD_last]

/-- The fault a transaction raises in a build, by the precondition or the reserved op code it violates (R232, R233). -/
inductive Raises (build : Bool) : Instr → Fault → Prop
  | p2mul (x p : Half) (hp : ¬ PowerOfTwo p) : Raises build (.p2mul x p) (.preconditionViolated .p2mul p)
  | udiv (a b : Half) (h0 : b ≠ 0#16) (hb : ¬ PowerOfTwo b) :
    Raises build (.udiv a b) (.preconditionViolated (.eng .udiv) b)
  | sdiv (a b : Half) (hbuild : build = true) (h0 : b ≠ 0#16) (hb : ¬ PositivePowerOfTwo b) :
    Raises build (.sdiv a b) (.preconditionViolated (.eng .sdiv) b)
  | smulReserved (a b : Half) (hbuild : build = false) : Raises build (.smul a b) (.reservedOp 0x4#4)
  | sdivReserved (a b : Half) (hbuild : build = false) : Raises build (.sdiv a b) (.reservedOp 0x5#4)

/-- A transaction that answers a fault violates what its operation rule demands. -/
theorem raises_of_exec_fault {i : Instr} {s : State} {f : Fault} (h : exec i s = .fault f) :
    Raises s.hasSignedMulDiv i f := by
  cases i with
  | fa a b c => cases h
  | rca32 a b c => cases h
  | add a b => cases h
  | sub a b => cases h
  | umul a b => cases h
  | p2mul x p =>
    rw [exec_p2mul] at h
    split_ifs at h with hp
    cases h
    exact .p2mul x p hp
  | udiv a b =>
    rw [exec_udiv] at h
    split_ifs at h with h0 hb
    cases h
    exact .udiv a b h0 hb
  | smul a b =>
    rw [exec_smul] at h
    split_ifs at h with hbuild
    cases h
    exact .smulReserved a b (Bool.eq_false_iff.2 hbuild)
  | sdiv a b =>
    rw [exec_sdiv] at h
    split_ifs at h with hbuild h0 hb
    · cases h
      exact .sdiv a b hbuild h0 hb
    · cases h
      exact .sdivReserved a b (Bool.eq_false_iff.2 hbuild)

/-- Where a transaction violates what its operation rule demands, it answers the fault. -/
theorem exec_fault_of_raises {i : Instr} {s : State} {f : Fault} (h : Raises s.hasSignedMulDiv i f) :
    exec i s = .fault f := by
  cases h with
  | p2mul x p hp => rw [exec_p2mul, if_neg hp]
  | udiv a b h0 hb => rw [exec_udiv, if_neg h0, if_neg hb]
  | sdiv a b hbuild h0 hb => rw [exec_sdiv, if_pos hbuild, if_neg h0, if_neg hb]
  | smulReserved a b hbuild => rw [exec_smul, hbuild, if_neg Bool.false_ne_true]
  | sdivReserved a b hbuild => rw [exec_sdiv, hbuild, if_neg Bool.false_ne_true]

theorem exec_fault_iff {i : Instr} {s : State} {f : Fault} :
    exec i s = .fault f ↔ Raises s.hasSignedMulDiv i f :=
  ⟨raises_of_exec_fault, exec_fault_of_raises⟩

/-- Settles O34, by the three ways to raise it. -/
theorem preconditionViolatedExactly : Obligations.PreconditionViolatedExactly := by
  intro i s op v
  rw [exec_fault_iff, ← positivePowerOfTwo_iff]
  constructor
  · intro h
    cases h with
    | p2mul x _ hp => exact .inl ⟨x, rfl, rfl, hp⟩
    | udiv a _ h0 hb => exact .inr (.inl ⟨a, rfl, rfl, h0, hb⟩)
    | sdiv a _ hbuild h0 hb => exact .inr (.inr ⟨a, rfl, rfl, hbuild, h0, hb⟩)
  · rintro (⟨x, rfl, rfl, hp⟩ | ⟨a, rfl, rfl, h0, hb⟩ | ⟨a, rfl, rfl, hbuild, h0, hb⟩)
    · exact .p2mul x v hp
    · exact .udiv a v h0 hb
    · exact .sdiv a v hbuild h0 hb

/-- Of the six ENG operations SMUL and SDIV are reserved, where the option is not built (R87). -/
theorem raises_reservedOp_iff {build : Bool} {op : EngOp} {a b : Half} {v : BitVec 4} :
    Raises build (engInstr op a b) (.reservedOp v) ↔ v = op.code ∧ build = false ∧ (op = .smul ∨ op = .sdiv) := by
  constructor
  · intro h
    cases op <;> cases h
    case smul.smulReserved hbuild => exact ⟨rfl, hbuild, .inl rfl⟩
    case sdiv.sdivReserved hbuild => exact ⟨rfl, hbuild, .inr rfl⟩
  · rintro ⟨rfl, hbuild, rfl | rfl⟩
    · exact .smulReserved a b hbuild
    · exact .sdivReserved a b hbuild

theorem EngOp.not_six_le_code (op : EngOp) : ¬ 6 ≤ op.code.toNat := by
  cases op <;> decide

theorem EngOp.code_four_or_five (op : EngOp) : op.code.toNat = 4 ∨ op.code.toNat = 5 ↔ op = .smul ∨ op = .sdiv := by
  cases op <;> decide

/-- Settles O35: an op select that names an operation is as reserved as that operation, and every other is reserved. -/
theorem reservedOpExactly : Obligations.ReservedOpExactly := by
  intro s k c v a b caps
  rcases code_or_reserved c with ⟨op, rfl⟩ | hc
  · rw [attempt_of_decode (d := .eng _ a b caps) (decode_packEng_code op _ _), exec_fault_iff, raises_reservedOp_iff,
      State.select_hasSignedMulDiv, op.code_four_or_five, or_iff_right op.not_six_le_code]
  · rw [attempt_of_reserved (d := .eng c a b caps) (decode_packEng_reserved hc _ _), and_iff_left (.inl hc),
      Host.Outcome.fault.injEq, Fault.reservedOp.injEq, eq_comm]

/-- Settles O36, by what each transaction can raise. -/
theorem faultPriority : Obligations.FaultPriority := by
  refine ⟨exec_not_refused, fun i s f h => ?_⟩
  cases raises_of_exec_fault h with
  | p2mul x p hp => rfl
  | udiv a b h0 hb => rfl
  | sdiv a b hbuild h0 hb => exact (if_pos hbuild).mpr rfl
  | smulReserved a b hbuild => exact ⟨hbuild, rfl⟩
  | sdivReserved a b hbuild => exact (if_neg (Bool.eq_false_iff.1 hbuild)).mpr rfl

end Sys2Proof.Machine
end

section
/-! The record of faults is written and never read (R235, R272): everything a step is made of commutes with putting earlier faults
in front of the record. -/

namespace Sys2Proof.Machine

/-- The state with earlier faults in front of those it has recorded. -/
def State.behind (s : State) (earlier : List Fault) : State := { s with faults := earlier ++ s.faults }

/-- The answer whose next state has earlier faults in front of those it has recorded. -/
def Result.behind (earlier : List Fault) : Result → Result
  | .next s => .next (s.behind earlier)
  | .fault f => .fault f
  | .refused r => .refused r

section
variable (s : State) (earlier : List Fault)

theorem State.record_behind (f : Fault) : (s.behind earlier).record f = (s.record f).behind earlier := by
  simp [State.behind, State.record]

theorem State.store_behind (d : HVar) (v : Half) (r : Except Fault Half) :
    (s.behind earlier).store d v r = (s.store d v r).behind earlier := by
  cases r with
  | ok w => rfl
  | error f => exact congrArg (State.setFree · d v) (s.record_behind earlier f)

theorem State.look_behind (r : Except Fault Wide) : (s.behind earlier).look r = (s.look r).behind earlier := by
  cases r with
  | ok w => rfl
  | error f => exact s.record_behind earlier f

theorem captureFa_behind (k : Nat) (caps : List (FaField × HVar)) :
    captureFa k caps (s.behind earlier) = (captureFa k caps s).behind earlier := by
  induction caps generalizing s with
  | nil => rfl
  | cons c rest ih =>
    rw [captureFa, State.store_behind, ih]
    rfl

theorem captureEng_behind (k : Nat) (caps : List (EngField × HVar)) :
    captureEng k caps (s.behind earlier) = (captureEng k caps s).behind earlier := by
  induction caps generalizing s with
  | nil => rfl
  | cons c rest ih =>
    rw [captureEng, State.store_behind, ih]
    rfl

theorem captures_behind (k : Nat) (d : Drive) : captures k d (s.behind earlier) = (captures k d s).behind earlier := by
  cases d with
  | fa a b c caps => exact captureFa_behind s earlier k caps
  | eng op a b caps => exact captureEng_behind s earlier k caps
  | rca32 a b c => rfl
  | p2mul x p => rfl

theorem looseEng_behind (caps : List (EngField × HVar)) :
    looseEng caps (s.behind earlier) = (looseEng caps s).behind earlier := by
  induction caps generalizing s with
  | nil => rfl
  | cons c rest ih => exact ih (s.setFree c.2 (s.freeEng c.1))

theorem noRecord_behind (d : Drive) : noRecord d (s.behind earlier) = (noRecord d s).behind earlier := by
  cases d with
  | eng op a b caps => exact looseEng_behind s.dropEng earlier caps
  | fa a b c caps => rfl
  | rca32 a b c => rfl
  | p2mul x p => rfl

/-- A meaning reads nothing but the build parameter, and records nothing. -/
theorem exec_behind (i : Instr) : exec i (s.behind earlier) = Result.behind earlier (exec i s) := by
  have hsame : SameAnswer s (s.behind earlier) (exec i s) (exec i (s.behind earlier)) := exec_sameAnswer i rfl
  generalize exec i s = q, exec i (s.behind earlier) = r at hsame
  cases hsame <;> rfl

theorem attempt_behind (k : Nat) (d : Drive) :
    attempt k d (s.behind earlier) = Result.behind earlier (attempt k d s) := by
  cases hd : decode (driveWord s.hvars d) with
  | ok i =>
    have hd' : decode (driveWord (s.behind earlier).hvars d) = .ok i := hd
    rw [attempt_of_decode hd, attempt_of_decode hd']
    exact exec_behind (s.select k) earlier i
  | error e =>
    obtain ⟨op⟩ := e
    have hd' : decode (driveWord (s.behind earlier).hvars d) = .error (.reservedOp op) := hd
    rw [attempt_of_reserved hd, attempt_of_reserved hd', Result.behind]

theorem runTransaction_behind (k : Nat) (d : Drive) :
    runTransaction k d (s.behind earlier) = Result.behind earlier (runTransaction k d s) := by
  rw [runTransaction, attempt_behind, runTransaction]
  cases attempt k d s with
  | next t => exact congrArg (fun u => Host.Outcome.next u.advance) (captures_behind t earlier k d)
  | fault f =>
    have hrec := (s.select k).record_behind earlier f
    exact congrArg (fun u => Host.Outcome.next u.advance) ((congrArg (noRecord d) hrec).trans (noRecord_behind _ earlier d))
  | refused r => rfl

theorem runStmt_behind (st : Stmt) : runStmt st (s.behind earlier) = Result.behind earlier (runStmt st s) := by
  cases st with
  | transact k d => exact runTransaction_behind s earlier k d
  | readFa k f dst => exact congrArg (fun u => Host.Outcome.next u.advance) (s.store_behind earlier dst _ (readFa s k f))
  | readRca k => exact congrArg (fun u => Host.Outcome.next u.advance) (s.look_behind earlier (readRca s k))
  | readEng k f dst => exact congrArg (fun u => Host.Outcome.next u.advance) (s.store_behind earlier dst _ (readEng s k f))
  | readP2 k => exact congrArg (fun u => Host.Outcome.next u.advance) (s.look_behind earlier (readP2 s k))
  | assign dst v => rfl
  | ifZero x n =>
    exact congrArg Host.Outcome.next (apply_ite (State.behind · earlier) (s.getVar x = 0#16) (s.goTo n) s.advance).symm
  | ifNonzero x n =>
    exact congrArg Host.Outcome.next (apply_ite (State.behind · earlier) (s.getVar x = 0#16) s.advance (s.goTo n)).symm
  | goto n => rfl
  | halt => rfl

/-- A step adds its faults behind the recorded ones and reads none of them. -/
theorem step_behind : step (s.behind earlier) = Result.behind earlier (step s) := by
  have hfetch : fetch (s.behind earlier) = fetch s := rfl
  rw [step, step, hfetch]
  cases fetch s with
  | none => rfl
  | some st => exact runStmt_behind s earlier st

end

theorem step_answers_next (s : State) : ∃ t, step s = .next t := by
  rcases step_cases s with
    ⟨_, _, _, _, _, _, _, -, -, -, h⟩ | ⟨_, _, _, _, _, _, _, -, -, -, -, h⟩ | ⟨_, _, _, _, h⟩
  all_goals exact ⟨_, h⟩

/-- A step goes as from an empty record, and its new faults go behind whatever was recorded (R235). -/
theorem step_extends_faults (s : State) :
    ∃ (t : State) (new : List Fault), step s = .next t ∧ t.faults = s.faults ++ new ∧
      ∀ earlier : List Fault, step { s with faults := earlier } = .next { t with faults := earlier ++ new } := by
  obtain ⟨u, hu⟩ := step_answers_next { s with faults := [] }
  have hstep (earlier : List Fault) : step { s with faults := earlier } = .next (u.behind earlier) := by
    have h := step_behind { s with faults := [] } earlier
    rw [hu] at h
    simpa [State.behind, Result.behind] using h
  exact ⟨u.behind s.faults, u.faults, hstep s.faults, rfl, hstep⟩

theorem run_succ {s t : State} (h : step s = .next t) (k : Nat) :
    Host.Core.run core (k + 1) s = Host.Core.run core k t := by
  simp only [Host.Core.run, Host.Check.core_step, h]

/-- Every run goes on, with the faults of its steps behind those recorded before it (R235). -/
theorem run_extends_faults (k : Nat) (s : State) :
    ∃ (t : State) (new : List Fault), Host.Core.run core k s = .next t ∧ t.faults = s.faults ++ new := by
  induction k generalizing s with
  | zero => exact ⟨s, [], rfl, (List.append_nil _).symm⟩
  | succ k ih =>
    obtain ⟨u, new, hu, hnew, -⟩ := step_extends_faults s
    obtain ⟨t, more, ht, hmore⟩ := ih u
    exact ⟨t, new ++ more, (run_succ hu k).trans ht, by rw [hmore, hnew, List.append_assoc]⟩

/-- A good run starts with nothing recorded (R272). -/
theorem GoodRun.faults_nil {k : Nat} {s : State} (h : GoodRun k s) : s.faults = [] := by
  obtain ⟨t, ht, hnil⟩ := h
  obtain ⟨u, new, hu, hnew⟩ := run_extends_faults k s
  cases ht.symm.trans hu
  rw [hnil] at hnew
  exact (List.append_eq_nil_iff.1 hnew.symm).1

theorem goodRun_succ_iff {s t : State} (h : step s = .next t) (k : Nat) : GoodRun (k + 1) s ↔ GoodRun k t := by
  rw [GoodRun, GoodRun, run_succ h]

/-- The beginning of a good run is a good run. -/
theorem GoodRun.of_add {j k : Nat} {s : State} (h : GoodRun (j + k) s) : GoodRun j s := by
  induction j generalizing s with
  | zero => exact ⟨s, rfl, h.faults_nil⟩
  | succ j ih =>
    obtain ⟨t, ht⟩ := step_answers_next s
    rw [Nat.succ_add, goodRun_succ_iff ht] at h
    exact (goodRun_succ_iff ht j).2 (ih h)

/-- Settles O37: the record is only ever added to, along a step and so along a run. -/
theorem recordedFaultsStay : Obligations.RecordedFaultsStay :=
  fun s => ⟨step_extends_faults s, fun k => run_extends_faults k s, fun _ _ => GoodRun.of_add⟩

end Sys2Proof.Machine
end

section
/-! What every step keeps: the canonical form of the banks (log entry 7). -/

namespace Sys2Proof.Machine

/-- A transaction that completes puts ports in one bank, in their place. -/
theorem exec_banksWf {i : Instr} {s t : State} (h : BanksWf s) (ht : exec i s = .next t) : BanksWf t := by
  obtain ⟨hfa, hrca, heng, hp2⟩ := h
  rcases exec_cases ht with ⟨p, rfl⟩ | ⟨p, rfl⟩ | ⟨p, rfl⟩ | ⟨p, rfl⟩
  · exact ⟨bankPut_wf hfa, hrca, heng, hp2⟩
  · exact ⟨hfa, bankPut_wf hrca, heng, hp2⟩
  · exact ⟨hfa, hrca, bankPut_wf heng, hp2⟩
  · exact ⟨hfa, hrca, heng, bankPut_wf hp2⟩

/-- A drop takes an entry out of one bank. -/
theorem banksWf_of_drop {s t : State} (h : BanksWf s)
    (ht : t = s.dropFa ∨ t = s.dropRca ∨ t = s.dropEng ∨ t = s.dropP2) : BanksWf t := by
  obtain ⟨hfa, hrca, heng, hp2⟩ := h
  rcases ht with rfl | rfl | rfl | rfl
  · exact ⟨bankDrop_wf hfa, hrca, heng, hp2⟩
  · exact ⟨hfa, bankDrop_wf hrca, heng, hp2⟩
  · exact ⟨hfa, hrca, bankDrop_wf heng, hp2⟩
  · exact ⟨hfa, hrca, heng, bankDrop_wf hp2⟩

/-- Settles O45. Puts and drops keep the form, and the host's own fields are no banks. -/
theorem stepKeepsBanksCanonical : Obligations.StepKeepsBanksCanonical := by
  intro s t hs ht
  exact step_keeps exec_banksWf banksWf_of_drop (fun _ _ _ _ _ _ h => h) hs ht

end Sys2Proof.Machine
end

section
/-! Host reads and captures of outputs (R234, R261, R263, R271; 95 section 4). -/

namespace Sys2Proof.Machine

/-- What a host read answers of a field that shows a number, or none and raises `f`. -/
def shown (number : Option Nat) (f : Fault) : Except Fault Half :=
  match number with
  | some n => .ok (BitVec.ofNat 16 n)
  | none => .error f

theorem bitHalf_eq_ofNat (v : Bool) : bitHalf v = BitVec.ofNat 16 v.toNat := by
  cases v <;> rfl

/-- A flag shows the host its number, 0 or 1 (log entry 6). -/
theorem map_bitHalf_eq (flag : Option Bool) : flag.map bitHalf = (flag.map Bool.toNat).map (BitVec.ofNat 16) := by
  rw [Option.map_map]
  exact congrArg (flag.map ·) (funext bitHalf_eq_ofNat)

theorem engField_eq_engNumber (out : WideResult) (f : EngField) :
    engField out f = (engNumber out f).map (BitVec.ofNat 16) := by
  cases f with
  | result | supplementalResult => simp [engField, engNumber, Function.comp_def]
  | unsignedOverflow | signedOverflow | divideByZero => exact map_bitHalf_eq _

theorem faNumber_eq (p : FaPorts) (f : FaField) : faNumber p f = (faField p f).toNat := by
  cases f <;> rfl

/-- A read of an ENG field answers its number, or where it is `UNDEF` the fault with the operation and the field (R234, R263). -/
theorem readEng_of_engAt {s : State} {k : Nat} {p : EngPorts} (h : s.engAt k = some p) (f : EngField) :
    readEng s k f = shown (engNumber p.out f) (.readUndefinedField (some (.eng p.op)) (.eng f)) := by
  rw [readEng, h]
  simp only [engField_eq_engNumber]
  cases engNumber p.out f <;> rfl

theorem readFa_of_faAt {s : State} {k : Nat} {p : FaPorts} (h : s.faAt k = some p) (f : FaField) :
    readFa s k f = shown (some (faNumber p f)) (.readUndefinedField none (.fa f)) := by
  rw [readFa, h, shown, faNumber_eq, ← bitHalf_eq_ofNat]

theorem step_of_fetch {s : State} {st : Stmt} (h : fetch s = some st) : step s = runStmt st s := by
  rw [step, h]

/-- Settles O39: each read's answer is what its statement stores or looks at. -/
theorem hostReadsOfOutputs : Obligations.HostReadsOfOutputs := by
  refine fun s k => ⟨fun f d p hf hp => ⟨fun n hn => ?_, fun hn => ?_⟩, fun f d p hf hp => ?_, fun p hf hp => ?_,
    fun p hf hp => ?_⟩
  · rw [step_of_fetch hf, runStmt, readEng_of_engAt hp, hn]
    rfl
  · refine ⟨s.freeEng f, s.draws + 1, ?_⟩
    rw [step_of_fetch hf, runStmt, readEng_of_engAt hp, hn]
    rfl
  · rw [step_of_fetch hf, runStmt, readFa_of_faAt hp]
    rfl
  · have hread : readRca s k = .ok p.sum := by rw [readRca, hp]
    refine ⟨hread, ?_⟩
    rw [step_of_fetch hf, runStmt, hread]
    rfl
  · have hread : readP2 s k = .ok p.y := by rw [readP2, hp]
    refine ⟨hread, ?_⟩
    rw [step_of_fetch hf, runStmt, hread]
    rfl

/-! Captures. -/

section
variable {α : Type} (free : State → α → Half) (number : α → Option Nat) (fault : α → Fault)

/-- The captures, left to right, of fields that show fixed numbers, or none and raise their fault. -/
def captureShown : List (α × HVar) → State → State
  | [], s => s
  | (f, d) :: rest, s => captureShown rest (s.store d (free s f) (shown (number f) (fault f)))

/-- The faults a capture list records: one for each field that shows no number. -/
def captureFaults (caps : List (α × HVar)) : List Fault :=
  (caps.filter fun c => (number c.1).isNone).map fun c => fault c.1

/-- But for host variables, captures change the record of faults and the count of free values. -/
theorem captureShown_eq (caps : List (α × HVar)) (s : State) :
    captureShown free number fault caps s =
      { s with
        hvars := (captureShown free number fault caps s).hvars
        faults := s.faults ++ captureFaults number fault caps
        draws := s.draws + (captureFaults number fault caps).length } := by
  induction caps generalizing s with
  | nil => simp [captureShown, captureFaults]
  | cons c rest ih =>
    rw [captureShown, ih]
    cases hn : number c.1 with
    | some n => simp [shown, State.store, State.setVar, captureFaults, hn]
    | none => simp [shown, State.store, State.setFree, State.record, captureFaults, hn]; omega

theorem captureShown_append (before after : List (α × HVar)) (s : State) :
    captureShown free number fault (before ++ after) s =
      captureShown free number fault after (captureShown free number fault before s) := by
  induction before generalizing s with
  | nil => rfl
  | cons c rest ih => exact ih _

/-- Captures write the variables they name, and no other. -/
theorem captureShown_hvars_other {caps : List (α × HVar)} {h : HVar} (hne : ∀ c ∈ caps, c.2 ≠ h) (s : State) :
    (captureShown free number fault caps s).hvars[h] = s.hvars[h] := by
  induction caps generalizing s with
  | nil => rfl
  | cons c rest ih =>
    obtain ⟨hc, hrest⟩ := List.forall_mem_cons.1 hne
    rw [captureShown, ih hrest]
    cases number c.1 <;> exact Vector.getElem_set_ne c.2.isLt _ (Fin.val_ne_of_ne hc)

/-- A variable holds the number of the field named with it, where no later capture names the variable. -/
theorem captureShown_hvars_last {before after : List (α × HVar)} {f : α} {d : HVar} {n : Nat}
    (hafter : ∀ c ∈ after, c.2 ≠ d) (hn : number f = some n) (s : State) :
    (captureShown free number fault (before ++ (f, d) :: after) s).hvars[d] = BitVec.ofNat 16 n := by
  rw [captureShown_append, captureShown, captureShown_hvars_other free number fault hafter, hn]
  exact Vector.getElem_set_self d.isLt

/-- What a capture list leaves, where every number fits a host variable. -/
theorem captureShown_spec (hfits : ∀ {f n}, number f = some n → n < 2 ^ 16) (caps : List (α × HVar)) (s : State) :
    ∃ hv : Vector Half 16,
      captureShown free number fault caps s =
        { s with
          hvars := hv
          faults := s.faults ++ captureFaults number fault caps
          draws := s.draws + (captureFaults number fault caps).length } ∧
      (∀ (before after : List (α × HVar)) (f : α) (d : HVar) (n : Nat),
        caps = before ++ (f, d) :: after → (∀ c ∈ after, c.2 ≠ d) → number f = some n → hv[d].toNat = n) ∧
      ∀ h : HVar, (∀ c ∈ caps, c.2 ≠ h) → hv[h] = s.hvars[h] := by
  refine ⟨_, captureShown_eq free number fault caps s, fun before after f d n hcaps hafter hn => ?_,
    fun h hne => captureShown_hvars_other free number fault hne s⟩
  rw [hcaps, captureShown_hvars_last free number fault hafter hn, BitVec.toNat_ofNat, Nat.mod_eq_of_lt (hfits hn)]

end

theorem State.store_faAt (s : State) (d : HVar) (v : Half) (r : Except Fault Half) (k : Nat) :
    (s.store d v r).faAt k = s.faAt k := by
  cases r <;> rfl

theorem State.store_engAt (s : State) (d : HVar) (v : Half) (r : Except Fault Half) (k : Nat) :
    (s.store d v r).engAt k = s.engAt k := by
  cases r <;> rfl

/-- The captures of an ENG that shows a record are those of the record's numbers. -/
theorem captureEng_eq_captureShown {k : Nat} {p : EngPorts} (caps : List (EngField × HVar)) {s : State}
    (h : s.engAt k = some p) :
    captureEng k caps s = captureShown State.freeEng (engNumber p.out)
      (fun f => .readUndefinedField (some (.eng p.op)) (.eng f)) caps s := by
  induction caps generalizing s with
  | nil => rfl
  | cons c rest ih =>
    rw [captureEng, ih ((s.store_engAt ..).trans h), readEng_of_engAt h]
    rfl

/-- The captures of an FA that shows its outputs are those of their numbers. -/
theorem captureFa_eq_captureShown {k : Nat} {p : FaPorts} (caps : List (FaField × HVar)) {s : State}
    (h : s.faAt k = some p) :
    captureFa k caps s = captureShown (fun s _ => s.freeBit) (fun f => some (faNumber p f))
      (fun f => .readUndefinedField none (.fa f)) caps s := by
  induction caps generalizing s with
  | nil => rfl
  | cons c rest ih =>
    rw [captureFa, ih ((s.store_faAt ..).trans h), readFa_of_faAt h]
    rfl

theorem engNumber_lt {out : WideResult} {f : EngField} {n : Nat} (h : engNumber out f = some n) : n < 2 ^ 16 := by
  cases f <;> obtain ⟨v, -, rfl⟩ := Option.map_eq_some_iff.1 h
  case result | supplementalResult => exact v.isLt
  all_goals exact v.toNat_lt.trans (by decide)

theorem faNumber_lt (p : FaPorts) (f : FaField) : faNumber p f < 2 ^ 16 := by
  rw [faNumber_eq]
  exact (Bool.toNat_lt _).trans (by decide)

theorem exec_hvars {i : Instr} {s t : State} (h : exec i s = .next t) : t.hvars = s.hvars := by
  rcases exec_cases h with ⟨p, rfl⟩ | ⟨p, rfl⟩ | ⟨p, rfl⟩ | ⟨p, rfl⟩ <;> rfl

theorem exec_faults {i : Instr} {s t : State} (h : exec i s = .next t) : t.faults = s.faults := by
  rcases exec_cases h with ⟨p, rfl⟩ | ⟨p, rfl⟩ | ⟨p, rfl⟩ | ⟨p, rfl⟩ <;> rfl

/-- The ports an ENG shows after a transaction are of that transaction's operation. -/
theorem op_of_exec_engInstr {op : EngOp} {a b : Half} {s t : State} {p : EngPorts}
    (h : exec (engInstr op a b) s = .next t) (hp : t.engAt s.sel = some p) : p.op = op := by
  obtain ⟨out, -, rfl⟩ := exec_engInstr_next_iff.1 h
  cases (State.engAt_putEng s _).symm.trans hp
  rfl

/-- Settles O51: the transaction leaves the host's fields, and the captures copy what its ports show. -/
theorem captureCopiesTheNamedField : Obligations.CaptureCopiesTheNamedField := by
  refine ⟨fun s t k op x y o a b caps p hf hd ht hp => ?_, fun s t k x y z a b c caps p hf hd ht hp => ?_⟩
  · have hstep := step_of_attempt_next hf ((attempt_of_decode hd).trans ht)
    have hop : p.op = op := op_of_exec_engInstr ht hp
    obtain ⟨hv, hshown, hnamed, hother⟩ := captureShown_spec State.freeEng (engNumber p.out)
      (fun f => .readUndefinedField (some (.eng p.op)) (.eng f)) engNumber_lt caps t
    rw [captures, captureEng_eq_captureShown caps hp, hshown, exec_faults ht, hop, State.advance,
      State.goTo, exec_hpc ht] at hstep
    rw [exec_hvars ht] at hother
    exact ⟨hv, _, hstep, hnamed, hother⟩
  · have hstep := step_of_attempt_next hf ((attempt_of_decode hd).trans ht)
    obtain ⟨hv, hshown, hnamed, hother⟩ := captureShown_spec (fun s _ => s.freeBit) (fun f => some (faNumber p f))
      (fun f => .readUndefinedField none (.fa f)) (by rintro f _ ⟨⟩; exact faNumber_lt p f) caps t
    rw [captures, captureFa_eq_captureShown caps hp, hshown] at hstep
    rw [exec_hvars ht] at hother
    refine ⟨hv, hstep.trans ?_, fun before after f d hcaps hafter => hnamed before after f d _ hcaps hafter rfl, hother⟩
    simp [captureFaults, State.advance, State.goTo, exec_hpc ht]

end Sys2Proof.Machine
end

section
/-! Before the first transaction and after the last host statement (R261, R270). -/

namespace Sys2Proof.Machine

/-- A read of an FA that shows no output raises with no operation, since none produced it (log entry 8). -/
theorem readFa_of_no_output {s : State} {k : Nat} (h : s.faAt k = none) (f : FaField) :
    readFa s k f = .error (.readUndefinedField none (.fa f)) := by
  rw [readFa, h]

theorem readRca_of_no_output {s : State} {k : Nat} (h : s.rcaAt k = none) :
    readRca s k = .error (.readUndefinedField none .rcaSum) := by
  rw [readRca, h]

theorem readEng_of_no_output {s : State} {k : Nat} (h : s.engAt k = none) (f : EngField) :
    readEng s k f = .error (.readUndefinedField none (.eng f)) := by
  rw [readEng, h]

theorem readP2_of_no_output {s : State} {k : Nat} (h : s.p2At k = none) :
    readP2 s k = .error (.readUndefinedField none .p2Y) := by
  rw [readP2, h]

/-- A read that raises, stored: its fault is recorded, the variable takes the free value, and the host goes on (R235). -/
theorem State.store_error_advance (s : State) (d : HVar) (v : Half) (f : Fault) :
    (s.store d v (.error f)).advance =
      { s with hvars := s.hvars.set d v, draws := s.draws + 1, faults := s.faults ++ [f], hpc := s.hpc + 1 } :=
  rfl

/-- A read that raises, looked at: its fault is recorded, and the host goes on (R235). -/
theorem State.look_error_advance (s : State) (f : Fault) :
    (s.look (.error f)).advance = { s with faults := s.faults ++ [f], hpc := s.hpc + 1 } :=
  rfl

/-- Settles O40: on each block the read raises, and its statement records that fault. -/
theorem readBeforeAnyTransactionFaults : Obligations.ReadBeforeAnyTransactionFaults := by
  refine fun s k => ⟨fun f d hf hnone => ⟨s.freeBit, s.draws + 1, ?_⟩, fun hf hnone => ?_,
    fun f d hf hnone => ⟨s.freeEng f, s.draws + 1, ?_⟩, fun hf hnone => ?_⟩
  · rw [step_of_fetch hf, runStmt, readFa_of_no_output hnone, State.store_error_advance]
  · rw [step_of_fetch hf, runStmt, readRca_of_no_output hnone, State.look_error_advance]
  · rw [step_of_fetch hf, runStmt, readEng_of_no_output hnone, State.store_error_advance]
  · rw [step_of_fetch hf, runStmt, readP2_of_no_output hnone, State.look_error_advance]

@[simp] theorem State.reset_faAt (k : Nat) : State.reset.faAt k = none := bankGet_nil k
@[simp] theorem State.reset_rcaAt (k : Nat) : State.reset.rcaAt k = none := bankGet_nil k
@[simp] theorem State.reset_engAt (k : Nat) : State.reset.engAt k = none := bankGet_nil k
@[simp] theorem State.reset_p2At (k : Nat) : State.reset.p2At k = none := bankGet_nil k

/-- Settles O47: at reset every bank is empty, and a read where no output is shown raises. -/
theorem resetShowsNoOutput : Obligations.ResetShowsNoOutput :=
  ⟨rfl, fun k => ⟨State.reset_faAt k, State.reset_rcaAt k, State.reset_engAt k, State.reset_p2At k,
    fun f => ⟨none, readFa_of_no_output (State.reset_faAt k) f⟩, ⟨none, readRca_of_no_output (State.reset_rcaAt k)⟩,
    fun f => ⟨none, readEng_of_no_output (State.reset_engAt k) f⟩, ⟨none, readP2_of_no_output (State.reset_p2At k)⟩⟩⟩

/-- The host has no statement to run exactly past the end of its program. -/
theorem fetch_eq_none_iff {s : State} : fetch s = none ↔ s.prog.length ≤ s.hpc :=
  List.getElem?_eq_none_iff

/-- Settles O53: past the end of the host program there is no statement to fetch. -/
theorem nothingRunsWithoutTheHost : Obligations.NothingRunsWithoutTheHost := by
  intro s hend
  rw [step, fetch_eq_none_iff.2 hend]

end Sys2Proof.Machine
end

section
/-! The host's own statements: assignment, jumps and halt (D18; 95 section 4). -/

namespace Sys2Proof.Machine

/-- Both ways of a conditional jump only move the host's position. -/
theorem runStmt_ifZero (s : State) (x : HVar) (n : Nat) :
    runStmt (.ifZero x n) s = .next (s.goTo (if s.getVar x = 0x0000#16 then n else s.hpc + 1)) := by
  rw [runStmt, State.advance, ← apply_ite s.goTo]

theorem runStmt_ifNonzero (s : State) (x : HVar) (n : Nat) :
    runStmt (.ifNonzero x n) s = .next (s.goTo (if s.getVar x = 0x0000#16 then s.hpc + 1 else n)) := by
  rw [runStmt, State.advance, ← apply_ite s.goTo]

/-- Settles O52: the step runs the fetched statement, which sets one variable, moves the position or changes nothing (labels are
positions, log entry 4). -/
theorem hostStatements : Obligations.HostStatements := by
  refine fun s x v n => ⟨fun hf => ?assign, fun hf => ?ifZero, fun hf => ?ifNonzero, fun hf => ?goto, fun hf => ?halt⟩
  case assign => rw [step_of_fetch hf, runStmt, State.setVar, State.advance, State.goTo]
  case ifZero => rw [step_of_fetch hf, runStmt_ifZero, State.goTo, State.getVar]
  case ifNonzero => rw [step_of_fetch hf, runStmt_ifNonzero, State.goTo, State.getVar]
  case goto => rw [step_of_fetch hf, runStmt, State.goTo]
  case halt => rw [step_of_fetch hf, runStmt]

end Sys2Proof.Machine
end
